-- ==== Sys2Proof/Word.lean ====
section
/-! DEFINITION. The words of the block: a byte and a 16-bit value.

Every quantity of the block is unsigned (R7), so both are plain bit vectors; lengths, offsets and
`total` are exact natural numbers and never wrap (R8, R72). -/

namespace Sys2Proof

/-- A byte, bits 7 down to 0 (R7). -/
abbrev Byte := BitVec 8

/-- A 16-bit field: the serial number, the checksum, the CRC register, a `length` (R60, R76, R162). -/
abbrev Word16 := BitVec 16

end Sys2Proof
end

