-- ==== Sys2Proof/Config.lean ====
section
/-! DEFINITION. The constants and the parameters of the block (R6, R28).

The values R6 calls "fixed", and the parameters that R28 gives exactly one legal value (`LFS_STD`,
`BYTE_ORDER`, `ACK_MARK`), are constants here. The parameters with a real choice are the
configuration record `Params`; U1, U2 and U18 ask for exactly that. -/

namespace Sys2Proof

/-- `CRC_RANGE`: the first byte of the checksummed range (R6, R70). -/
inductive CrcRange where
  /-- the length field (the default, decision D5) -/
  | fromLength
  /-- the protocolNumber -/
  | fromProtocol
  deriving DecidableEq, Repr

/-- The configuration record: fixed before `rst` is released, constant afterwards (R28, R210). -/
structure Params where
  /-- `CRC_POLY`: the generator polynomial, its x^16 term implied -/
  crcPoly : Word16
  /-- `CRC_INIT`: the initial value of the CRC register -/
  crcInit : Word16
  /-- `CRC_REFIN`: each input byte is bit-reflected before use -/
  crcRefin : Bool
  /-- `CRC_REFOUT`: the final register is bit-reflected -/
  crcRefout : Bool
  /-- `CRC_XOROUT`: the value xored onto the result -/
  crcXorout : Word16
  /-- `CRC_RANGE`: where the checksummed range starts -/
  crcRange : CrcRange
  /-- `BUF_CAP`: the capacity of a context's buffer, in bytes -/
  bufCap : Nat
  /-- `N_CTX`: the number of independent connection contexts -/
  nCtx : Nat
  deriving DecidableEq, Repr

namespace Config

/-- `MAX_TOTAL`: the largest frame, 2 + 2 + 65535 + 2 bytes (R6, R64). -/
def maxTotal : Nat := 65541

/-- `MIN_LENGTH`: the smallest `length` whose fields fit (R71). -/
def minLength : Nat := 5

/-- The byte that stands twice in `MARK_STD` (R6, R42). -/
def markStdByte : Byte := 0x78

/-- The byte that stands twice in `MARK_EXT` (R6, R42). -/
def markExtByte : Byte := 0x79

/-- The first byte of `STOP` (R42, R69). -/
def stop0 : Byte := 0x0D

/-- The second byte of `STOP` (R42, R69). -/
def stop1 : Byte := 0x0A

/-- `LFS_STD`, whose single legal value is 1 (R28, R62). -/
def lfsStd : Nat := 1

/-- `LFS_EXT`, fixed at 2 (R6, R62). -/
def lfsExt : Nat := 2

end Config

/-- The defaults of R6: CRC-16/X-25 over the range that starts at the length field. DESIGN CHOICE
(assumption 2): `BUF_CAP` is the least value R6 allows and `N_CTX`, which R6 leaves OPEN, is 1. -/
def Params.default : Params where
  crcPoly := 0x1021
  crcInit := 0xFFFF
  crcRefin := true
  crcRefout := true
  crcXorout := 0xFFFF
  crcRange := .fromLength
  bufCap := 65541
  nCtx := 1

/-- The legal values of R28, and of R6 for `BUF_CAP` and `N_CTX` (D16, D18). -/
abbrev Params.Legal (p : Params) : Prop :=
  p.crcPoly.getLsbD 0 = true ∧ Config.maxTotal ≤ p.bufCap ∧ 1 ≤ p.nCtx

end Sys2Proof
end

