-- ==== Sys2Proof/Syntax.lean ====
section
/-! DEFINITION. The instructions: one constructor of `Instr` for each row of `spec/opcode_table.json`.

The table has two layers (R2): the wire format (`FRAME.*`), and the block's operation set, that is,
the input beats, the reset pin, the acknowledgment channel, the output records, the scan and its
outcomes, and the pure functions. -/

namespace Sys2Proof

/-- The two frame variants, selected by the start marker (R61). -/
inductive Variant where
  /-- standard frame, start marker `78 78` -/
  | std
  /-- extended-length frame, start marker `79 79` -/
  | ext
  deriving DecidableEq, Repr

/-- The sub-codes of `FRAMING_ERROR` (R76). -/
inductive FramingSub where
  | truncated | badStart | lengthMismatch | badStop | lengthTooShort
  deriving DecidableEq, Repr

/-- The sub-codes of `ANOMALY` (R76). -/
inductive AnomalySub where
  | garbage | stopMismatch
  deriving DecidableEq, Repr

/-- The fields a `FRAME_OK` record carries (R76, R137). -/
structure FrameFields where
  variant : Variant
  length : Word16
  protocolNumber : Byte
  payload : List Byte
  serialNumber : Word16
  checksum : Word16
  /-- the slice -/
  raw : List Byte
  deriving DecidableEq, Repr

/-- A record of the output trace (R76). A code outside the table (U20) is no value of this type. -/
inductive Record where
  | frameOk (f : FrameFields)
  | checksumError (raw : List Byte) (received computed : Word16)
  | framingError (sub : FramingSub) (raw : List Byte)
  | anomaly (sub : AnomalySub)
  deriving DecidableEq, Repr

/-- The bytes of a presumed frame that its `length` counts (R63): the four fields where they fit,
and otherwise (`length` below 5, where R65 and R66 give no field) the bare bytes. -/
inductive FrameBody where
  | fields (protocolNumber : Byte) (payload : List Byte) (serialNumber checksum : Word16)
  | short (bytes : List Byte)
  deriving DecidableEq, Repr

/-- One constructor for each row of the opcode table, in the table's order. -/
inductive Instr where
  /-- `PUSH d` (R103) -/
  | push (d : Byte)
  /-- `CLR`; `x` is the ignored data of the beat (R102) -/
  | clr (x : Byte)
  /-- `IN.RESERVED`: an input beat with `op` = 10 or 11 (R118) -/
  | inReserved (x : BitVec 9)
  /-- `RST`: the level input `rst` at 1 (R101) -/
  | rst
  /-- `FEED bytes`, a pseudo-operation: one `PUSH` for each byte (R104) -/
  | feed (bytes : List Byte)
  /-- `FRAME.STD`: a presumed standard frame on the wire, with the two bytes at the stop marker's offset (R65) -/
  | frameStd (body : FrameBody) (stop0 stop1 : Byte)
  /-- `FRAME.EXT`: a presumed extended-length frame on the wire (R66) -/
  | frameExt (body : FrameBody) (stop0 stop1 : Byte)
  /-- `FRAME.NOMARK`: a byte, or a byte pair, that is not the start of a marker (R73, R109) -/
  | frameNomark (b0 : Byte) (b1 : Option Byte)
  /-- `ENCACK(p, s)`: an `AQ` request (R142) -/
  | encack (p : Byte) (s : Word16)
  /-- `ACK`: an `AQ` response (R77, R142) -/
  | ack (p : Byte) (s c : Word16)
  /-- `REC.FRAME_OK` (R137) -/
  | recFrameOk (f : FrameFields)
  /-- `REC.CHECKSUM_ERROR` (R138) -/
  | recChecksumError (raw : List Byte) (received computed : Word16)
  /-- `REC.FRAMING_ERROR.TRUNCATED` (R132) -/
  | recTruncated (raw : List Byte)
  /-- `REC.FRAMING_ERROR.BAD_START` (R133) -/
  | recBadStart (raw : List Byte)
  /-- `REC.FRAMING_ERROR.LENGTH_MISMATCH` (R134) -/
  | recLengthMismatch (raw : List Byte)
  /-- `REC.FRAMING_ERROR.BAD_STOP` (R135) -/
  | recBadStop (raw : List Byte)
  /-- `REC.FRAMING_ERROR.LENGTH_TOO_SHORT` (R136) -/
  | recLengthTooShort (raw : List Byte)
  /-- `REC.ANOMALY.GARBAGE` (R109) -/
  | recGarbage
  /-- `REC.ANOMALY.STOP_MISMATCH` (R114) -/
  | recStopMismatch
  /-- `SCAN` (R105) -/
  | scan
  /-- `SCAN_STEP` (R106) -/
  | scanStep
  /-- `SCAN_STEP.WAIT_EMPTY` (R107) -/
  | waitEmpty
  /-- `SCAN_STEP.WAIT_HALF` (R108) -/
  | waitHalf
  /-- `SCAN_STEP.SKIP` (R109) -/
  | skip
  /-- `SCAN_STEP.WAIT_HDR` (R110) -/
  | waitHdr
  /-- `SCAN_STEP.WAIT_BODY` (R111) -/
  | waitBody
  /-- `SCAN_STEP.EMIT` (R113) -/
  | emit
  /-- `SCAN_STEP.DROP` (R114) -/
  | drop
  /-- `DECODE(F)` (R130, R131) -/
  | decode (frame : List Byte)
  /-- `CRC16(bytes)` (R162) -/
  | crc16 (bytes : List Byte)
  /-- `CRC_UPDATE(c, b)` (R164) -/
  | crcUpdate (c : Word16) (b : Byte)
  /-- `VERIFY(bytes, expected)` (R166) -/
  | verify (bytes : List Byte) (expected : Word16)
  deriving DecidableEq, Repr

end Sys2Proof
end

