-- ==== Sys2Proof/WellFormed.lean ====
section
/-! DEFINITION. What an instruction of the table has to satisfy beyond the types of its operands. -/

namespace Sys2Proof

/-- How many bytes the fields of the body take, that is, the frame's `length` (R63). -/
def FrameBody.size : FrameBody → Nat
  | .fields _ payload _ _ => payload.length + Config.minLength
  | .short bytes => bytes.length

/-- The body fits a length field that counts up to `cap`, and is written with its four fields
exactly when they fit (R63, R71). -/
def FrameBody.wf (cap : Nat) : FrameBody → Bool
  | .fields p payload s c => (FrameBody.fields p payload s c).size ≤ cap
  | .short bytes => bytes.length < Config.minLength

/-- A byte that can be the first of a start marker: 0x78 or 0x79 (R12, "half marker"). -/
def isMarkByte (b : Byte) : Bool :=
  b == Config.markStdByte || b == Config.markExtByte

/-- The two forms of `FRAME.NOMARK`: one byte that begins no marker, or a half marker followed by
a different byte (R109). -/
def nomarkWf (b0 : Byte) : Option Byte → Bool
  | none => !isMarkByte b0
  | some b1 => isMarkByte b0 && b1 != b0

/-- A `FRAME_OK` record's payload has `length - 5` bytes, and its slice `total` bytes (R64, R76). -/
def FrameFields.wf (f : FrameFields) : Bool :=
  f.payload.length + Config.minLength == f.length.toNat &&
    f.raw.length == match f.variant with
      | .std => f.length.toNat + 5
      | .ext => f.length.toNat + 6

/-- Well-formedness of an instruction: the bounds the encodings put on its operands. -/
def Instr.wf : Instr → Bool
  | .frameStd body _ _ => body.wf 255
  | .frameExt body _ _ => body.wf 65535
  | .frameNomark b0 b1 => nomarkWf b0 b1
  | .recFrameOk f => f.wf
  | .push _ => true
  | .clr _ => true
  | .inReserved _ => true
  | .rst => true
  | .feed _ => true
  | .encack _ _ => true
  | .ack _ _ _ => true
  | .recChecksumError _ _ _ => true
  | .recTruncated _ => true
  | .recBadStart _ => true
  | .recLengthMismatch _ => true
  | .recBadStop _ => true
  | .recLengthTooShort _ => true
  | .recGarbage => true
  | .recStopMismatch => true
  | .scan => true
  | .scanStep => true
  | .waitEmpty => true
  | .waitHalf => true
  | .skip => true
  | .waitHdr => true
  | .waitBody => true
  | .emit => true
  | .drop => true
  | .decode _ => true
  | .crc16 _ => true
  | .crcUpdate _ _ => true
  | .verify _ _ => true

end Sys2Proof
end

