-- ==== Sys2Proof/Decode.lean ====
section
/-! DEFINITION. The encodings: byte order and field helpers, the transfers on the block's ports, the
decoder (transfer to instruction, total, rejecting by name) and the encoder (instruction to transfer).

Bit positions are those of `30_encoding.md`: R61 to R70 for the wire, R75 for the input beats, R77
for the acknowledgment channel, R76 for the record tags. -/

namespace Sys2Proof

/-! ## Byte order and byte sequences -/

/-- `be16(h, l) = 256 * h + l`, `h` the byte that arrived first (R8, R43). -/
def be16 (h l : Byte) : Word16 := h ++ l

/-- `v[15:8]`. -/
def hi8 (v : Word16) : Byte := v.extractLsb' 8 8

/-- `v[7:0]`. -/
def lo8 (v : Word16) : Byte := v.extractLsb' 0 8

/-- The two bytes of a multi-byte numeric field in wire order, big-endian (R43). -/
def bytes16 (v : Word16) : List Byte := [hi8 v, lo8 v]

/-- `s[a..b)`, used with `a ≤ b ≤ |s|` (R7). Outside R7's condition it is cut to what is there, and
is empty where `b < a`; only the view `CRC_ACC` comes there (DESIGN CHOICE, assumption 21). -/
def slice (s : List Byte) (a b : Nat) : List Byte := (s.drop a).take (b - a)

/-- `s[i]`, used with `i < |s|` (R7). -/
def byteAt (s : List Byte) (i : Nat) : Byte := s.getD i 0

/-- The two-byte field whose first offset is `i` (R68). -/
def fieldAt (s : List Byte) (i : Nat) : Word16 := be16 (byteAt s i) (byteAt s (i + 1))

/-! ## Markers, length field and size of a frame -/

/-- `lfs`: the bytes in the length field of a variant (R62). -/
def Variant.lfs : Variant → Nat
  | .std => Config.lfsStd
  | .ext => Config.lfsExt

/-- The byte that stands twice in the variant's start marker (R42, R61). -/
def Variant.markByte : Variant → Byte
  | .std => Config.markStdByte
  | .ext => Config.markExtByte

/-- The start marker of a variant, as a byte sequence (R42). -/
def Variant.mark (v : Variant) : List Byte := [v.markByte, v.markByte]

/-- The offset of `protocolNumber`: `p = 2 + lfs` (R67). -/
def Variant.protoOffset (v : Variant) : Nat := 2 + v.lfs

/-- `total = 2 + lfs + length + 2` (R64). -/
def Variant.total (v : Variant) (n : Nat) : Nat := 2 + v.lfs + n + 2

/-- The largest value that the length field of a variant can hold (R63). -/
def Variant.maxLength : Variant → Nat
  | .std => 255
  | .ext => 65535

/-- The bytes of the length field that holds `n` (R63, R68). -/
def Variant.lengthBytes : Variant → Nat → List Byte
  | .std, n => [BitVec.ofNat 8 n]
  | .ext, n => bytes16 (BitVec.ofNat 16 n)

/-- The stop marker (R69). -/
def stopMarker : List Byte := [Config.stop0, Config.stop1]

/-- The variant that the first two bytes select, none if they are no start marker (R61). -/
def variantOf (b0 b1 : Byte) : Option Variant :=
  if b0 == Config.markStdByte && b1 == Config.markStdByte then some .std
  else if b0 == Config.markExtByte && b1 == Config.markExtByte then some .ext
  else none

/-- The value of the length field of a sequence that begins with a marker of variant `v`; none while
the field is incomplete (R63). -/
def lengthOf : Variant → List Byte → Option Nat
  | .std, _ :: _ :: n :: _ => some n.toNat
  | .ext, _ :: _ :: h :: l :: _ => some (be16 h l).toNat
  | _, _ => none

/-- What the head of a byte sequence can be. -/
inductive Head where
  | empty
  | noMark
  | half
  | noLength
  | frame (v : Variant) (n : Nat)
  deriving DecidableEq, Repr

/-- The first six tests of `SCAN_STEP`, in the order of R106; the three reads of R78 tell the size. -/
def headOf (bs : List Byte) : Head :=
  match bs with
  | [] => .empty
  | [b0] => if isMarkByte b0 then .half else .noMark
  | b0 :: b1 :: _ =>
    match variantOf b0 b1 with
    | none => .noMark
    | some v =>
      match lengthOf v bs with
      | none => .noLength
      | some n => .frame v n

/-- The stop test: the two bytes at the end of the first `total` bytes are `0D 0A` (R69, R112). -/
def stopTest (bs : List Byte) (total : Nat) : Bool :=
  byteAt bs (total - 2) == Config.stop0 && byteAt bs (total - 1) == Config.stop1

/-! ## Frames on the wire -/

/-- The bytes between the length field and the stop marker, in wire order (R60). -/
def FrameBody.bytes : FrameBody → List Byte
  | .fields p payload s c => p :: (payload ++ bytes16 s ++ bytes16 c)
  | .short bytes => bytes

/-- The body that `n` bytes spell: the four fields where they fit (R67 with offsets relative to
`protocolNumber`), the bare bytes otherwise (R71). -/
def FrameBody.ofBytes (bs : List Byte) : FrameBody :=
  if bs.length < Config.minLength then .short bs
  else .fields (byteAt bs 0) (slice bs 1 (bs.length - 4)) (fieldAt bs (bs.length - 4))
    (fieldAt bs (bs.length - 2))

/-- A presumed frame as it stands on the wire, with `e0 e1` at the stop marker's offset (R60). -/
def frameBytes (v : Variant) (body : FrameBody) (e0 e1 : Byte) : List Byte :=
  v.mark ++ v.lengthBytes body.bytes.length ++ body.bytes ++ [e0, e1]

/-- The bytes of `FRAME.NOMARK`. -/
def nomarkBytes (b0 : Byte) (b1 : Option Byte) : List Byte := b0 :: b1.toList

/-- The frame instruction of a variant. -/
def Instr.frame : Variant → FrameBody → Byte → Byte → Instr
  | .std => .frameStd
  | .ext => .frameExt

/-- The wire item at the head of a byte sequence, and the bytes after it. A sequence whose head is
incomplete is "incomplete, not invalid" (R73, R111): its bytes are a delivery, `FEED`. -/
def decodeWire (bs : List Byte) : Instr × List Byte :=
  match headOf bs with
  | .noMark =>
    if isMarkByte (byteAt bs 0) then (.frameNomark (byteAt bs 0) bs[1]?, bs.drop 2)
    else (.frameNomark (byteAt bs 0) none, bs.drop 1)
  | .frame v n =>
    if bs.length < v.total n then (.feed bs, [])
    else
      (Instr.frame v (.ofBytes (slice bs v.protoOffset (v.protoOffset + n)))
        (byteAt bs (v.total n - 2)) (byteAt bs (v.total n - 1)), bs.drop (v.total n))
  | .empty => (.feed bs, [])
  | .half => (.feed bs, [])
  | .noLength => (.feed bs, [])

/-! ## Record tags -/

/-- `variant` in a record: `STD` = 0, `EXT` = 1 (R76). -/
def Variant.code : Variant → BitVec 1
  | .std => 0
  | .ext => 1

/-- The sub-codes of `FRAMING_ERROR` (R76). -/
def FramingSub.code : FramingSub → BitVec 3
  | .truncated => 1
  | .badStart => 2
  | .lengthMismatch => 3
  | .badStop => 4
  | .lengthTooShort => 5

/-- The sub-codes of `ANOMALY` (R76). -/
def AnomalySub.code : AnomalySub → BitVec 3
  | .garbage => 1
  | .stopMismatch => 2

/-- `rc[1:0]` (R76). -/
def Record.rc : Record → BitVec 2
  | .frameOk _ => 0
  | .checksumError _ _ _ => 1
  | .framingError _ _ => 2
  | .anomaly _ => 3

/-- `sub[2:0]` (R76). -/
def Record.sub : Record → BitVec 3
  | .frameOk _ => 0
  | .checksumError _ _ _ => 0
  | .framingError sub _ => sub.code
  | .anomaly sub => sub.code

/-- The fields a record can carry beside its tag (R76). The spec gives them no bit layout, so a
transfer on the output holds the tag as bits and these as values (assumption 7). -/
structure RecordFields where
  variant : Variant := .std
  length : Word16 := 0
  protocolNumber : Byte := 0
  payload : List Byte := []
  serialNumber : Word16 := 0
  checksum : Word16 := 0
  raw : List Byte := []
  received : Word16 := 0
  computed : Word16 := 0
  deriving DecidableEq, Repr

/-- The record that a `FRAME_OK` tag and these fields spell. -/
def RecordFields.frameFields (f : RecordFields) : FrameFields where
  variant := f.variant
  length := f.length
  protocolNumber := f.protocolNumber
  payload := f.payload
  serialNumber := f.serialNumber
  checksum := f.checksum
  raw := f.raw

/-- The fields of a `FRAME_OK` record as they stand on the output. -/
def FrameFields.recordFields (f : FrameFields) : RecordFields :=
  { variant := f.variant, length := f.length, protocolNumber := f.protocolNumber,
    payload := f.payload, serialNumber := f.serialNumber, checksum := f.checksum, raw := f.raw }

/-! ## Transfers and the decoder -/

/-- One transfer on one of the block's ports, as raw bits where the spec gives bits. -/
inductive Xfer where
  /-- an `IN` beat, `op[1:0]` in bits 9..8, `data[7:0]` in bits 7..0 (R75) -/
  | inBeat (w : BitVec 10)
  /-- the level of the `rst` pin (R75, R200) -/
  | rstPin (level : BitVec 1)
  /-- bytes of the connection, as the transport delivers them (R201, step 4) -/
  | wire (bytes : List Byte)
  /-- an `AQ` request, `p` in bits 23..16, `s` in bits 15..0 (R77) -/
  | aqRequest (w : BitVec 24)
  /-- an `AQ` response, the first byte in bits 79..72 (R77) -/
  | aqResponse (w : BitVec 80)
  /-- an output record: its tag, and its fields (R76) -/
  | outRecord (rc : BitVec 2) (sub : BitVec 3) (f : RecordFields)
  /-- the call of an operation that has no bit encoding (R80, R130, R162) -/
  | call (i : Instr)
  deriving DecidableEq, Repr

/-- Why a transfer is no instruction of the table. -/
inductive DecodeError where
  /-- the `rst` pin at 0 is the release of the reset, not the row `RST` (R200) -/
  | pinLow
  /-- an output record with a tag that R76 says is never produced (U20) -/
  | unknownRecord (rc : BitVec 2) (sub : BitVec 3)
  /-- a `FRAME_OK` tag with a payload that has not `length - 5` bytes, or a slice that has not
  `total` (R76) -/
  | illFormedRecord
  /-- an 80-bit word that does not match the response pattern of R77 -/
  | notAResponse
  /-- a call of an operation that has a bit encoding and comes as a transfer on its own port -/
  | notACall
  deriving DecidableEq, Repr

/-- The rows that have no bit encoding: `FEED`, the scan, its outcomes, and the pure functions. -/
def Instr.isCall : Instr → Bool
  | .feed _ => true
  | .scan => true
  | .scanStep => true
  | .waitEmpty => true
  | .waitHalf => true
  | .skip => true
  | .waitHdr => true
  | .waitBody => true
  | .emit => true
  | .drop => true
  | .decode _ => true
  | .crc16 _ => true
  | .crcUpdate _ _ => true
  | .verify _ _ => true
  | .push _ => false
  | .clr _ => false
  | .inReserved _ => false
  | .rst => false
  | .frameStd _ _ _ => false
  | .frameExt _ _ _ => false
  | .frameNomark _ _ => false
  | .encack _ _ => false
  | .ack _ _ _ => false
  | .recFrameOk _ => false
  | .recChecksumError _ _ _ => false
  | .recTruncated _ => false
  | .recBadStart _ => false
  | .recLengthMismatch _ => false
  | .recBadStop _ => false
  | .recLengthTooShort _ => false
  | .recGarbage => false
  | .recStopMismatch => false

/-- The input beats of R75: `op` 00 `PUSH`, 01 `CLR`, 1x reserved. -/
def decodeBeat (w : BitVec 10) : Instr :=
  if w.getLsbD 9 then .inReserved (w.extractLsb' 0 9)
  else if w.getLsbD 8 then .clr (w.extractLsb' 0 8)
  else .push (w.extractLsb' 0 8)

/-- A delivery of bytes: the wire item they are, if they are exactly one, and `FEED` otherwise. -/
def decodeDelivery (bs : List Byte) : Instr :=
  match decodeWire bs with
  | (i, []) => i
  | (_, _ :: _) => .feed bs

/-- The acknowledgment request of R77. -/
def decodeRequest (w : BitVec 24) : Instr := .encack (w.extractLsb' 16 8) (w.extractLsb' 0 16)

/-- The acknowledgment response of R77: the bytes `78 78 05`, `p`, `s`, `c`, `0D 0A`. -/
def responseWord (p : Byte) (s c : Word16) : BitVec 80 :=
  (0x787805 : BitVec 24) ++ p ++ s ++ c ++ (0x0D0A : BitVec 16)

/-- The ten bytes of an 80-bit word, the first in bits 79..72 (R77). -/
def responseBytes (w : BitVec 80) : List Byte :=
  (List.range 10).map fun i => w.extractLsb' (72 - 8 * i) 8

/-- The response that an 80-bit word spells, if it matches the pattern of R77. -/
def decodeResponse (w : BitVec 80) : Except DecodeError Instr :=
  if w.extractLsb' 56 24 == (0x787805 : BitVec 24) && w.extractLsb' 0 16 == (0x0D0A : BitVec 16) then
    .ok (.ack (w.extractLsb' 48 8) (w.extractLsb' 32 16) (w.extractLsb' 16 16))
  else .error .notAResponse

/-- The record tags of R76; every other tag is refused (U20), and so is a `FRAME_OK` whose fields
have not the sizes R76 gives them. The fields that a tag does not carry are not looked at. -/
def decodeRecord (rc : BitVec 2) (sub : BitVec 3) (f : RecordFields) : Except DecodeError Instr :=
  match rc.toNat, sub.toNat with
  | 0, 0 => if f.frameFields.wf then .ok (.recFrameOk f.frameFields) else .error .illFormedRecord
  | 1, 0 => .ok (.recChecksumError f.raw f.received f.computed)
  | 2, 1 => .ok (.recTruncated f.raw)
  | 2, 2 => .ok (.recBadStart f.raw)
  | 2, 3 => .ok (.recLengthMismatch f.raw)
  | 2, 4 => .ok (.recBadStop f.raw)
  | 2, 5 => .ok (.recLengthTooShort f.raw)
  | 3, 1 => .ok .recGarbage
  | 3, 2 => .ok .recStopMismatch
  | _, _ => .error (.unknownRecord rc sub)

/-- The instruction that a transfer is. Total: a transfer that is none is rejected by name. -/
def decode : Xfer → Except DecodeError Instr
  | .inBeat w => .ok (decodeBeat w)
  | .rstPin level => if level == 1 then .ok .rst else .error .pinLow
  | .wire bytes => .ok (decodeDelivery bytes)
  | .aqRequest w => .ok (decodeRequest w)
  | .aqResponse w => decodeResponse w
  | .outRecord rc sub f => decodeRecord rc sub f
  | .call i => if i.isCall then .ok i else .error .notACall

/-- The transfer is one or more beats of an input channel, which is not accepted while `rst` is 1
(R101, R200). -/
def Xfer.isBeat : Xfer → Bool
  | .inBeat _ => true
  | .wire _ => true
  | .call (.feed _) => true
  | .call _ => false
  | .rstPin _ => false
  | .aqRequest _ => false
  | .aqResponse _ => false
  | .outRecord _ _ _ => false

/-! ## The encoder -/

/-- The transfer that carries a record: its tag, and its fields (R76). -/
def Record.xfer (r : Record) : Xfer :=
  .outRecord r.rc r.sub <|
    match r with
    | .frameOk f => f.recordFields
    | .checksumError raw received computed =>
      { raw := raw, received := received, computed := computed }
    | .framingError _ raw => { raw := raw }
    | .anomaly _ => {}

/-- The transfer of an instruction: the bits the spec gives it on the port the spec gives it. -/
def encode : Instr → Xfer
  | .push d => .inBeat ((0 : BitVec 2) ++ d)
  | .clr x => .inBeat ((1 : BitVec 2) ++ x)
  | .inReserved x => .inBeat ((1 : BitVec 1) ++ x)
  | .rst => .rstPin 1
  | .feed bytes => .call (.feed bytes)
  | .frameStd body e0 e1 => .wire (frameBytes .std body e0 e1)
  | .frameExt body e0 e1 => .wire (frameBytes .ext body e0 e1)
  | .frameNomark b0 b1 => .wire (nomarkBytes b0 b1)
  | .encack p s => .aqRequest (p ++ s)
  | .ack p s c => .aqResponse (responseWord p s c)
  | .recFrameOk f => (Record.frameOk f).xfer
  | .recChecksumError raw received computed => (Record.checksumError raw received computed).xfer
  | .recTruncated raw => (Record.framingError .truncated raw).xfer
  | .recBadStart raw => (Record.framingError .badStart raw).xfer
  | .recLengthMismatch raw => (Record.framingError .lengthMismatch raw).xfer
  | .recBadStop raw => (Record.framingError .badStop raw).xfer
  | .recLengthTooShort raw => (Record.framingError .lengthTooShort raw).xfer
  | .recGarbage => (Record.anomaly .garbage).xfer
  | .recStopMismatch => (Record.anomaly .stopMismatch).xfer
  | .scan => .call .scan
  | .scanStep => .call .scanStep
  | .waitEmpty => .call .waitEmpty
  | .waitHalf => .call .waitHalf
  | .skip => .call .skip
  | .waitHdr => .call .waitHdr
  | .waitBody => .call .waitBody
  | .emit => .call .emit
  | .drop => .call .drop
  | .decode frame => .call (.decode frame)
  | .crc16 bytes => .call (.crc16 bytes)
  | .crcUpdate c b => .call (.crcUpdate c b)
  | .verify bytes expected => .call (.verify bytes expected)

/-! ## The words of the opcode table -/

/-- The bytes that a 16-bit wire row of the table stands for, first byte in the high half (the
table's note on `FRAME.STD`), with zeros after them, cut to the one wire item they begin. -/
def tableWire (w : Nat) : List Byte :=
  let bs : List Byte := [BitVec.ofNat 8 (w >>> 8), BitVec.ofNat 8 w, 0, 0, 0, 0]
  bs.take (bs.length - (decodeWire bs).2.length)

/-- The fields that stand beside a tag of the table, which gives them no bits: those of the shortest
bytes for which `DECODE` returns that record under the default parameters, with zeros where the
bytes are free (assumption 8). The `FRAME_OK` and the `CHECKSUM_ERROR` are about the frame of
protocolNumber 0 and serialNumber 0, whose checksum is 0x9289. -/
def tableFields (rc : BitVec 2) (sub : BitVec 3) : RecordFields :=
  match rc.toNat, sub.toNat with
  | 0, 0 =>
    { length := 5, checksum := 0x9289,
      raw := [0x78, 0x78, 0x05, 0x00, 0x00, 0x00, 0x92, 0x89, 0x0D, 0x0A] }
  | 1, 0 =>
    { computed := 0x9289, raw := [0x78, 0x78, 0x05, 0x00, 0x00, 0x00, 0x00, 0x00, 0x0D, 0x0A] }
  | 2, 2 => { raw := [0x00, 0x00] }
  | 2, 3 => { raw := [0x78, 0x78, 0x00] }
  | 2, 4 => { raw := [0x78, 0x78, 0x00, 0x00, 0x00] }
  | 2, 5 => { raw := [0x78, 0x78, 0x00, 0x0D, 0x0A] }
  | _, _ => {}

/-- The transfer of the record tag in the bits `w`, `rc` then `sub` (R76). -/
def tableTag (w : Nat) : Xfer :=
  .outRecord (BitVec.ofNat 2 (w >>> 3)) (BitVec.ofNat 3 w)
    (tableFields (BitVec.ofNat 2 (w >>> 3)) (BitVec.ofNat 3 w))

/-- The transfer that the bits `w` of a row of `nbits` bits stand for: one byte, the `rst` pin or a
record tag; two bytes, an input beat or the first two bytes of a wire item; three bytes, an `AQ`
request (and the two record rows that the table's reader widened, assumption 8); ten bytes, an `AQ`
response. -/
def tableXfer (nbits w : Nat) : Option Xfer :=
  if nbits ≤ 8 then
    if w = 1 then some (.rstPin 1) else if w < 32 then some (tableTag w) else none
  else if nbits ≤ 16 then
    if w < 1024 then some (.inBeat (BitVec.ofNat 10 w))
    else if w < 65536 then some (.wire (tableWire w)) else none
  else if nbits ≤ 24 then
    if w = 0 ∨ w = 8 then some (tableTag w)
    else if w < 16777216 then some (.aqRequest (BitVec.ofNat 24 w)) else none
  else if nbits ≤ 80 then some (.aqResponse (BitVec.ofNat 80 w))
  else none

/-- The instruction that the decoder reads from the bits `w` of a table row of `nbits` bits. -/
def decodeTableWord (nbits w : Nat) : Option Instr :=
  match tableXfer nbits w with
  | none => none
  | some x =>
    match decode x with
    | .ok i => some i
    | .error _ => none

end Sys2Proof
end

