-- ==== Sys2Proof/Machine/State.lean ====
section
/-! DEFINITION. The state of the block, as plain data, and its value right after reset.

The architectural state of one context is the pair `(buf, desync)` (R21); `out` is its output trace
(R27). Everything R25 lists beside them is a function of `buf` and lives in `Machine/Views.lean`.
The block adds the level of the `rst` pin (R200) and its configuration record (R28). The remaining
fields are the model's own and stand for the environment (R20) and for what is on its way to it:
`cur`, `pend`, `aq` and `resp`. -/

namespace Sys2Proof.Machine

/-- One context (R21): what the block keeps for one connection. -/
structure Ctx where
  /-- the bytes not yet consumed, the oldest at index 0 (R21, R22) -/
  buf : List Byte
  /-- 1 inside a desync episode (R21, R23) -/
  desync : Bool
  /-- the records emitted since reset, the first emitted first (R27) -/
  out : List Record
  deriving DecidableEq, Repr

/-- The reset values of a context (R33). -/
def Ctx.reset : Ctx where
  buf := []
  desync := false
  out := []

/-- A value that a stateless operation returns to its caller (R9 `return v`, R77). -/
inductive Response where
  /-- the 10 bytes of an `AQ` response, once they are transferred (R77, R142) -/
  | ack (frame : List Byte)
  /-- the record that `DECODE` returns (R130) -/
  | record (r : Record)
  /-- the 16 bits that `CRC16` or `CRC_UPDATE` returns (R160, R164) -/
  | word (v : Word16)
  /-- the truth value that `VERIFY` returns (R166) -/
  | truth (b : Bool)
  deriving DecidableEq, Repr

/-- A transfer the environment offers: on the input channel of context `ch`, or, where the port
belongs to the whole block, with a `ch` that is not looked at. -/
structure Offer where
  ch : Nat
  xfer : Xfer
  deriving DecidableEq, Repr

/-- The state of the block. -/
structure State where
  /-- the configuration record: no step changes it (R28, R210; assumption 1) -/
  cfg : Params
  /-- the level of the input `rst`, true while reset is held (R75, R200) -/
  rst : Bool
  /-- the contexts, `N_CTX` of them, sharing nothing (R20, R197) -/
  ctxs : List Ctx
  /-- the model's own: the context whose channel the current transfer is on (R100; assumption 4) -/
  cur : Nat
  /-- the model's own: the transfers the environment offers, in the order in which it offers them;
  a beat stays here until it is accepted (R213; assumption 4) -/
  pend : List Offer
  /-- the model's own: the responses that stand on `AQ` and are not transferred yet, the oldest first;
  each is the answer to one request (R77, R145; assumption 23) -/
  aq : List (List Byte)
  /-- the model's own: the values returned by the stateless operations, the first first (assumption 5) -/
  resp : List Response
  deriving DecidableEq, Repr

/-- The state right after `rst` is released (R33), under a configuration: every context empty. -/
def State.resetWith (p : Params) : State where
  cfg := p
  rst := false
  ctxs := List.replicate p.nCtx Ctx.reset
  cur := 0
  pend := []
  aq := []
  resp := []

/-- The machine right after reset, under the default parameters of R6 (assumptions 2 and 4). -/
def State.reset : State := State.resetWith Params.default

/-- The reasons for which the machine stops with a fault. -/
inductive Fault where
  /-- Raised by every operation on a context when `cur` names none of the `N_CTX` contexts (R197):
  there is no such channel. Safe: the model stops where the block has no behaviour. -/
  | noSuchContext
  deriving DecidableEq, Repr

/-- The reasons for which an instruction has no transition. -/
inductive Refusal where
  /-- Raised by an arm of `exec` that has no meaning yet, with the row's mnemonic. Safe. -/
  | notModelled (mnemonic : String)
  /-- Raised by `IN.RESERVED`, always: "a model refuses the beat" (R118, U13). Safe. -/
  | reservedBeat
  /-- Raised by `PUSH`, `FEED` and the wire frames when the buffer holds `BUF_CAP` bytes: the
  precondition of R103 fails, and a smaller buffer "should refuse" (U15). Safe; it cannot happen
  between beats when `BUF_CAP` is legal (R24). -/
  | bufferFull
  /-- Raised by the row of a scan outcome in a context where `SCAN_STEP` takes another outcome: the
  rule's condition does not hold, and R106 takes exactly one outcome. Raised likewise by the row of
  a record that the scan does not emit there, or that `DECODE` does not return for the bytes it
  carries (R76, R140). Safe. -/
  | outcomeNotTaken
  /-- Raised by `ACK` where the response it carries is not the next one that stands on `AQ`: "the block
  never sends anything by itself" (R145). Safe. -/
  | responseNotOwed
  /-- Raised by `step` on a transfer that is no instruction of the table (U20, R77). Safe. -/
  | undecodable (e : DecodeError)
  deriving DecidableEq, Repr

/-- The outcome of an operation on the whole block. -/
abbrev Result := Host.Outcome State Fault Refusal

/-- The outcome of an operation on one context. -/
abbrev CtxResult := Host.Outcome Ctx Fault Refusal

end Sys2Proof.Machine
end

