-- ==== Sys2Proof/Machine/Ops.lean ====
section
/-! DEFINITION. The named operations on a context's buffer and trace, on the block's contexts, on
its reset pin and on what the environment offers. -/

namespace Sys2Proof.Machine

/-! ## The buffer (R9, R22) -/

/-- `buf` as addressed memory: the offsets 0 to `|buf| - 1`, each with its byte (R31, R40). Dense and
rising, so equal buffers are equal lists of cells and the other way round. -/
def Memory.cells (buf : List Byte) : List Host.Cell := buf.zipIdx.map fun (b, i) => (i, b)

/-- The byte at an offset; an offset from `|buf|` on does not exist (R40). -/
def Memory.read (buf : List Byte) (off : Nat) : Option Byte := buf[off]?

/-- What the spec asks of the memory: `0 <= len(buf) <= BUF_CAP` (R21). -/
def Memory.wf (cap : Nat) (buf : List Byte) : Bool := buf.length ≤ cap

/-- `MemRead(off, n)`: the bytes `st.buf[off..off+n)`, used with `off + n ≤ |st.buf|` (R9). -/
def Ctx.memRead (c : Ctx) (off n : Nat) : List Byte := slice c.buf off (off + n)

/-- `MemWrite(|st.buf|, n, v)`, the only write R9 defines: append at the tail (R22). -/
def Ctx.memAppend (c : Ctx) (v : List Byte) : Ctx := { c with buf := c.buf ++ v }

/-- `BufDrop(n)`: remove a prefix, used with `n ≤ |st.buf|` (R9, R22). -/
def Ctx.bufDrop (c : Ctx) (n : Nat) : Ctx := { c with buf := c.buf.drop n }

/-- `st.buf <- []` (R101, R102). -/
def Ctx.bufClear (c : Ctx) : Ctx := { c with buf := [] }

/-! ## Raising an exception (R9, R27, R185)

An exception of this block is a record in the output trace: nothing saves a return address, no
handler runs, and there is no return (R187). `emit` is that one operation. -/

/-- `emit r`: append the record to the output trace. It changes neither `buf` nor `desync` (R9). -/
def Ctx.emit (c : Ctx) (r : Record) : Ctx := { c with out := c.out ++ [r] }

/-! ## The contexts of the block -/

/-- The reset procedure on every context, which is also how they are held while `rst` is 1
(R101, R200). The configuration is not touched (R33). -/
def State.holdReset (s : State) : State := { s with ctxs := s.ctxs.map fun _ => Ctx.reset }

/-- `rst` goes to 1: every context takes its reset values and is held there (R101, R200). -/
def State.raiseRst (s : State) : State := { s.holdReset with rst := true }

/-- `rst` returns to 0 (R200). -/
def State.releaseRst (s : State) : State := { s with rst := false }

/-- Put back the context that the current channel serves. -/
def State.setCtx (s : State) (c : Ctx) : State := { s with ctxs := s.ctxs.set s.cur c }

/-- The outcome of an operation on the current context, as an outcome of the block: only that
context changes (R20, R51, R190). -/
def State.liftCtx (s : State) : CtxResult → Result
  | .next c => .next (s.setCtx c)
  | .fault r => .fault r
  | .refused r => .refused r

/-- Run an operation on the context that the current channel serves. While `rst` is 1 every context
is held at its reset values and nothing is accepted (R200). -/
def State.onCtx (s : State) (f : Ctx → CtxResult) : Result :=
  if s.rst then .next s.holdReset
  else
    match s.ctxs[s.cur]? with
    | none => .fault .noSuchContext
    | some c => s.liftCtx (f c)

/-- Run an operation that always succeeds on the current context. -/
def State.updateCtx (s : State) (f : Ctx → Ctx) : Result := s.onCtx fun c => .next (f c)

/-- `return v` of a stateless operation: the value goes to its caller and the state of the block is
not read or written (R9, R77, R130, R160). -/
def State.respond (s : State) (v : Response) : Result := .next { s with resp := s.resp ++ [v] }

/-! ## The acknowledgment channel (R77, R145) -/

/-- The response to a request stands on `AQ`, behind those that stand there already (R77). -/
def State.putOnAq (s : State) (frame : List Byte) : Result := .next { s with aq := s.aq ++ [frame] }

/-- The response that stands first on `AQ` is transferred to its requester. No transition for bytes
that do not stand there: the block sends nothing by itself (R145). -/
def State.takeFromAq (s : State) (frame : List Byte) : Result :=
  match s.aq with
  | [] => .refused .responseNotOwed
  | f :: rest =>
    if f = frame then .next { s with aq := rest, resp := s.resp ++ [.ack frame] }
    else .refused .responseNotOwed

/-! ## What the environment offers (R20, R213) -/

/-- The first offer that is accepted at this level of `rst`, and the offers that stay: while `rst`
is 1 a beat is not accepted and stays offered (R101, R213). -/
def acceptFrom (rst : Bool) : List Offer → Option (Offer × List Offer)
  | [] => none
  | o :: rest =>
    if rst && o.xfer.isBeat then
      match acceptFrom rst rest with
      | none => none
      | some (o', rest') => some (o', o :: rest')
    else some (o, rest)

/-- Take the next offer that is accepted, and serve its channel. -/
def State.takeOffer (s : State) : Option (Xfer × State) :=
  match acceptFrom s.rst s.pend with
  | none => none
  | some (o, rest) => some (o.xfer, { s with cur := o.ch, pend := rest })

/-- Nothing is accepted: the block waits (R204), and holds its contexts while `rst` is 1 (R200). -/
def State.idle (s : State) : State := if s.rst then s.holdReset else s

end Sys2Proof.Machine
end

