-- ==== Sys2Proof/Machine/Operands.lean ====
section
/-! DEFINITION. The operand forms: the fields of a frame at the offsets of R65 to R67. -/

namespace Sys2Proof.Machine

/-- `protocolNumber = F[p]` (R67, R68). -/
def protocolNumberOf (v : Variant) (F : List Byte) : Byte := byteAt F v.protoOffset

/-- `payload = F[p+1 .. p+n-4)`, in wire order (R67, R68). -/
def payloadOf (v : Variant) (n : Nat) (F : List Byte) : List Byte :=
  slice F (v.protoOffset + 1) (v.protoOffset + n - 4)

/-- `serialNumber = be16(F[p+n-4], F[p+n-3])` (R67, R131). -/
def serialNumberOf (v : Variant) (n : Nat) (F : List Byte) : Word16 :=
  fieldAt F (v.protoOffset + n - 4)

/-- `received = be16(F[p+n-2], F[p+n-1])`, the checksum field (R67, R131). -/
def checksumOf (v : Variant) (n : Nat) (F : List Byte) : Word16 :=
  fieldAt F (v.protoOffset + n - 2)

/-- The offset of the first byte of the checksummed range: the length field or the protocolNumber (R70). -/
def rangeStart (r : CrcRange) (v : Variant) : Nat :=
  match r with
  | .fromLength => 2
  | .fromProtocol => v.protoOffset

/-- The checksummed range of a frame: up to the checksum field, which it excludes (R70, R167). -/
def rangeOf (r : CrcRange) (v : Variant) (n : Nat) (F : List Byte) : List Byte :=
  slice F (rangeStart r v) (v.protoOffset + n - 2)

end Sys2Proof.Machine
end

