-- ==== Sys2Proof/Machine/Checksum.lean ====
section
/-! DEFINITION. The Checksum Engine: `CRC_UPDATE`, `CRC16`, `VERIFY` (R160 to R172). -/

namespace Sys2Proof.Machine

/-- One of the eight shifts of `CRC_UPDATE`: shift left, and xor the polynomial if bit 15 was set (R164). -/
def crcShift (poly c : Word16) : Word16 :=
  if c.getLsbD 15 then (c <<< 1) ^^^ poly else c <<< 1

/-- `f` applied `n` times. -/
def repeatTimes {α : Type} (f : α → α) : Nat → α → α
  | 0, a => a
  | n + 1, a => repeatTimes f n (f a)

/-- The byte as it enters the register: reflected first if `CRC_REFIN` (R164). -/
def crcInByte (p : Params) (b : Byte) : Byte := if p.crcRefin then b.reverse else b

/-- `CRC_UPDATE(c, b)`: the byte enters at the top, then eight shifts (R164). -/
def crcUpdate (p : Params) (c : Word16) (b : Byte) : Word16 :=
  repeatTimes (crcShift p.crcPoly) 8 (c ^^^ ((crcInByte p b).setWidth 16 <<< 8))

/-- The register after the bytes of a sequence, from a given register (R162, R170). -/
def crcFold (p : Params) (c : Word16) (bytes : List Byte) : Word16 :=
  bytes.foldl (crcUpdate p) c

/-- Output reflection and final xor (R162). -/
def crcFinish (p : Params) (c : Word16) : Word16 :=
  (if p.crcRefout then c.reverse else c) ^^^ p.crcXorout

/-- `CRC16(bytes)` (R162). -/
def crc16 (p : Params) (bytes : List Byte) : Word16 :=
  crcFinish p (crcFold p p.crcInit bytes)

/-- `VERIFY(bytes, expected)`: all 16 bits are compared (R166). -/
def verify (p : Params) (bytes : List Byte) (expected : Word16) : Bool :=
  crc16 p bytes == expected

/-! ## The default parameters, without reflection, and by table (R163, R165) -/

/-- One shift of the reflected register, with the reversed polynomial (R163). -/
def crcShiftRight (r : Word16) : Word16 :=
  if r.getLsbD 0 then (r >>> 1) ^^^ 0x8408 else r >>> 1

/-- One byte absorbed by the reflected register: it enters at the bottom (R163). -/
def crcUpdateReflected (r : Word16) (b : Byte) : Word16 :=
  repeatTimes crcShiftRight 8 (r ^^^ b.setWidth 16)

/-- `CRC16_default(bytes)` (R163). -/
def crc16Reflected (bytes : List Byte) : Word16 :=
  bytes.foldl crcUpdateReflected 0xFFFF ^^^ 0xFFFF

/-- The table entry `T[i]`: eight shifts from `r = i` (R165). -/
def crcTable (i : Byte) : Word16 := repeatTimes crcShiftRight 8 (i.setWidth 16)

/-- One byte absorbed by table: `r <- (r >> 8) xor T[(r xor b) and 0xFF]` (R165). -/
def crcUpdateByTable (r : Word16) (b : Byte) : Word16 :=
  (r >>> 8) ^^^ crcTable (lo8 r ^^^ b)

/-! ## The meanings -/

/-- `CRC16(bytes)`: the value goes to the caller, and nothing else changes (R160, R162). -/
def execCrc16 (bytes : List Byte) (s : State) : Result :=
  s.respond (.word (crc16 s.cfg bytes))

/-- `CRC_UPDATE(c, b)` (R164). -/
def execCrcUpdate (c : Word16) (b : Byte) (s : State) : Result :=
  s.respond (.word (crcUpdate s.cfg c b))

/-- `VERIFY(bytes, expected)` (R166). -/
def execVerify (bytes : List Byte) (expected : Word16) (s : State) : Result :=
  s.respond (.truth (verify s.cfg bytes expected))

end Sys2Proof.Machine
end

