-- ==== Sys2Proof/Machine/Codec.lean ====
section
/-! DEFINITION. The Frame Codec: `DECODE`, `ENCACK`, and the frame builders (R79, R130 to R146). -/

namespace Sys2Proof.Machine

/-- The fields that `DECODE` extracts once the framing checks have passed (R131, R137). -/
def extractFields (v : Variant) (n : Nat) (F : List Byte) : FrameFields where
  variant := v
  length := BitVec.ofNat 16 n
  protocolNumber := protocolNumberOf v F
  payload := payloadOf v n F
  serialNumber := serialNumberOf v n F
  checksum := checksumOf v n F
  raw := F

/-- Checks 7 and 8 of `DECODE`: the checksum (R131, R137, R138). -/
def checkChecksum (p : Params) (v : Variant) (n : Nat) (F : List Byte) : Record :=
  let range := rangeOf p.crcRange v n F
  let received := checksumOf v n F
  if verify p range received then .frameOk (extractFields v n F)
  else .checksumError F received (crc16 p range)

/-- Checks 4 to 6 of `DECODE`, for a marker of variant `v` and a length field of value `n` (R131). -/
def checkFrame (p : Params) (v : Variant) (n : Nat) (F : List Byte) : Record :=
  if F.length ≠ v.total n then .framingError .lengthMismatch F
  else if !stopTest F F.length then .framingError .badStop F
  else if n < Config.minLength then .framingError .lengthTooShort F
  else checkChecksum p v n F

/-- `DECODE(F)`: the checks of R131 in their order; the first that fails decides. Total (R139). -/
def decodeFrame (p : Params) (F : List Byte) : Record :=
  match F with
  | b0 :: b1 :: _ =>
    match variantOf b0 b1 with
    | none => .framingError .badStart F
    | some v =>
      match lengthOf v F with
      | none => .framingError .truncated F
      | some n => checkFrame p v n F
  | _ => .framingError .truncated F

/-- The frame of variant `v` with the given fields and a fresh checksum: the builders `STD` and `EXT`
of R79, where the payload has at most 250 and at most 65530 bytes. -/
def buildFrame (p : Params) (v : Variant) (proto : Byte) (payload : List Byte) (serial : Word16) :
    List Byte :=
  let n := payload.length + Config.minLength
  let tail := proto :: (payload ++ bytes16 serial)
  let range := match p.crcRange with
    | .fromLength => v.lengthBytes n ++ tail
    | .fromProtocol => tail
  v.mark ++ v.lengthBytes n ++ tail ++ bytes16 (crc16 p range) ++ stopMarker

/-- The checksummed range of the acknowledgment: `body` or `body[1..4)` (R142). -/
def ackRange (r : CrcRange) (proto : Byte) (serial : Word16) : List Byte :=
  let body : List Byte := [0x05, proto, hi8 serial, lo8 serial]
  match r with
  | .fromLength => body
  | .fromProtocol => slice body 1 4

/-- The 10 bytes of an acknowledgment with checksum field `c` (R77, R142). -/
def ackFrame (proto : Byte) (serial c : Word16) : List Byte :=
  [0x78, 0x78, 0x05, proto, hi8 serial, lo8 serial, hi8 c, lo8 c, 0x0D, 0x0A]

/-- `ENCACK(p, s)`: the acknowledgment frame with a fresh checksum (R142). -/
def encAck (p : Params) (proto : Byte) (serial : Word16) : List Byte :=
  ackFrame proto serial (crc16 p (ackRange p.crcRange proto serial))

/-! ## The meanings -/

/-- `DECODE(F)`: the record goes to the caller, and no state is read or written (R130). -/
def execDecode (frame : List Byte) (s : State) : Result :=
  s.respond (.record (decodeFrame s.cfg frame))

/-- `ENCACK(p, s)`: the request on `AQ` is answered at once, and the response stands on `AQ`; it is
independent of every context and of `rst` (R77, R142, R200). -/
def execEncack (p : Byte) (sn : Word16) (s : State) : Result :=
  s.putOnAq (encAck s.cfg p sn)

/-- `ACK`: the response `78 78 05 p s_hi s_lo c_hi c_lo 0D 0A`, which an `ENCACK` has put on `AQ`, is
transferred to its requester (R77, R142, R145). -/
def execAck (p : Byte) (sn c : Word16) (s : State) : Result :=
  s.takeFromAq (ackFrame p sn c)

end Sys2Proof.Machine
end

