-- ==== Sys2Proof/Machine/Flags.lean ====
section
/-! DEFINITION. The one flag of the block, `desync`, and the `STATUS` values (R23, R27, R29). -/

namespace Sys2Proof.Machine

/-- `st.desync <- 1`, by `SKIP` and `DROP` (R23). -/
def Ctx.enterDesync (c : Ctx) : Ctx := { c with desync := true }

/-- `st.desync <- 0`, by `EMIT`, `CLR` and `RST` (R23). -/
def Ctx.leaveDesync (c : Ctx) : Ctx := { c with desync := false }

/-- The read-only status values of a context (R29). -/
structure Status where
  /-- `STATUS.DESYNC` -/
  desync : BitVec 1
  /-- `STATUS.PARTIAL` -/
  isPartial : BitVec 1
  /-- `STATUS.LEVEL` -/
  level : BitVec 17
  deriving DecidableEq, Repr

/-- `STATUS`: a pure function of the state, with no side effect (R29, R48). -/
def Ctx.status (c : Ctx) : Status where
  desync := BitVec.ofBool c.desync
  isPartial := BitVec.ofBool (0 < c.buf.length)
  level := BitVec.ofNat 17 c.buf.length

end Sys2Proof.Machine
end

