-- ==== Sys2Proof/Machine/Reassembler.lean ====
section
/-! DEFINITION. The Stream Reassembler: the scan and its outcomes, `PUSH`, `FEED`, `CLR`, `RST`
(R100 to R121). -/

namespace Sys2Proof.Machine

/-- The seven outcomes of `SCAN_STEP`; `EMIT` and `DROP` carry the `total` they remove (R106). -/
inductive ScanOutcome where
  | waitEmpty
  | waitHalf
  | skip
  | waitHdr
  | waitBody
  | emit (total : Nat)
  | drop (total : Nat)
  deriving DecidableEq, Repr

/-- The outcome that `SCAN_STEP` takes on a buffer: the tests in the order of R106. -/
def scanOutcome (buf : List Byte) : ScanOutcome :=
  match headOf buf with
  | .empty => .waitEmpty
  | .noMark => .skip
  | .half => .waitHalf
  | .noLength => .waitHdr
  | .frame v n =>
    if buf.length < v.total n then .waitBody
    else if stopTest buf (v.total n) then .emit (v.total n)
    else .drop (v.total n)

/-- The outcome ends the scan (R105). -/
def ScanOutcome.isWait : ScanOutcome → Bool
  | .waitEmpty => true
  | .waitHalf => true
  | .waitHdr => true
  | .waitBody => true
  | .skip => false
  | .emit _ => false
  | .drop _ => false

/-- `SKIP`: a `GARBAGE` anomaly if none is due to this episode yet, and one byte removed (R109). -/
def scanSkip (c : Ctx) : Ctx :=
  (if c.desync then c else (c.emit (.anomaly .garbage)).enterDesync).bufDrop 1

/-- `EMIT`: the slice is removed, the episode ends, and `DECODE`'s record is emitted (R113, R120). -/
def scanEmit (p : Params) (total : Nat) (c : Ctx) : Ctx :=
  ((c.bufDrop total).leaveDesync).emit (decodeFrame p (c.memRead 0 total))

/-- `DROP`: the anomaly, and the whole presumed frame removed (R114). -/
def scanDrop (total : Nat) (c : Ctx) : Ctx :=
  ((c.emit (.anomaly .stopMismatch)).bufDrop total).enterDesync

/-- The effect of an outcome; the four waits have none (R107 to R114). -/
def applyOutcome (p : Params) (o : ScanOutcome) (c : Ctx) : Ctx :=
  match o with
  | .waitEmpty => c
  | .waitHalf => c
  | .waitHdr => c
  | .waitBody => c
  | .skip => scanSkip c
  | .emit total => scanEmit p total c
  | .drop total => scanDrop total c

/-- `SCAN_STEP` (R106). -/
def scanStep (p : Params) (c : Ctx) : Ctx := applyOutcome p (scanOutcome c.buf) c

/-- The loop of `SCAN`, with a bound on its steps. -/
def scanLoop (p : Params) : Nat → Ctx → Ctx
  | 0, c => c
  | fuel + 1, c => if (scanOutcome c.buf).isWait then c else scanLoop p fuel (scanStep p c)

/-- `SCAN`: `SCAN_STEP` until a wait (R105); "a scan makes at most `|buf|` steps" (R115). -/
def scan (p : Params) (c : Ctx) : Ctx := scanLoop p c.buf.length c

/-- `PUSH d`: append, then scan; none where the precondition `|st.buf| < BUF_CAP` fails (R103). -/
def push (p : Params) (d : Byte) (c : Ctx) : Option Ctx :=
  if c.buf.length < p.bufCap then some (scan p (c.memAppend [d])) else none

/-- `FEED bytes`: `PUSH` of each byte in order (R104). -/
def feed (p : Params) : List Byte → Ctx → Option Ctx
  | [], c => some c
  | b :: bs, c => (push p b c).bind (feed p bs)

/-- The source's formulation of `feed`: append the whole delivery, then scan (R117). -/
def feedWhole (p : Params) (bytes : List Byte) (c : Ctx) : Ctx := scan p (c.memAppend bytes)

/-- `CLR` on its context: the trace is unchanged (R102). -/
def clr (c : Ctx) : Ctx := c.bufClear.leaveDesync

/-- A buffer that cannot take a byte refuses it and drops nothing (R103, U15). -/
def fullOr : Option Ctx → CtxResult
  | none => .refused .bufferFull
  | some c => .next c

/-- Deliver bytes to the current context, as the beats of `FEED` (R104). -/
def State.deliver (s : State) (bytes : List Byte) : Result :=
  s.onCtx fun c => fullOr (feed s.cfg bytes c)

/-- The effect of one outcome on a context in which `SCAN_STEP` takes it (R106). -/
def takeOutcome (p : Params) (taken : ScanOutcome → Bool) (c : Ctx) : CtxResult :=
  if taken (scanOutcome c.buf) then .next (scanStep p c) else .refused .outcomeNotTaken

/-! ## The meanings -/

/-- `PUSH d` (R103). -/
def execPush (d : Byte) (s : State) : Result :=
  s.onCtx fun c => fullOr (push s.cfg d c)

/-- `CLR`; the data of the beat is ignored (R102). -/
def execClr (_ : Byte) (s : State) : Result := s.updateCtx clr

/-- `IN.RESERVED`: no meaning, and no transition (R118, U13). -/
def execInReserved (_ : BitVec 9) (_ : State) : Result := .refused .reservedBeat

/-- `RST`: the pin goes to 1 and every context takes its reset values (R101, R200). -/
def execRst (s : State) : Result := .next s.raiseRst

/-- `FEED bytes` (R104). -/
def execFeed (bytes : List Byte) (s : State) : Result := s.deliver bytes

/-- `SCAN` (R105). -/
def execScan (s : State) : Result := s.updateCtx (scan s.cfg)

/-- `SCAN_STEP` (R106). -/
def execScanStep (s : State) : Result := s.updateCtx (scanStep s.cfg)

/-- `WAIT_EMPTY` (R107). -/
def execWaitEmpty (s : State) : Result :=
  s.onCtx (takeOutcome s.cfg fun o => o == .waitEmpty)

/-- `WAIT_HALF` (R108). -/
def execWaitHalf (s : State) : Result :=
  s.onCtx (takeOutcome s.cfg fun o => o == .waitHalf)

/-- `SKIP` (R109). -/
def execSkip (s : State) : Result :=
  s.onCtx (takeOutcome s.cfg fun o => o == .skip)

/-- `WAIT_HDR` (R110). -/
def execWaitHdr (s : State) : Result :=
  s.onCtx (takeOutcome s.cfg fun o => o == .waitHdr)

/-- `WAIT_BODY` (R111). -/
def execWaitBody (s : State) : Result :=
  s.onCtx (takeOutcome s.cfg fun o => o == .waitBody)

/-- `EMIT` (R113). -/
def execEmit (s : State) : Result :=
  s.onCtx (takeOutcome s.cfg fun o => match o with | .emit _ => true | _ => false)

/-- `DROP` (R114). -/
def execDrop (s : State) : Result :=
  s.onCtx (takeOutcome s.cfg fun o => match o with | .drop _ => true | _ => false)

end Sys2Proof.Machine
end

