-- ==== Sys2Proof/Machine/Records.lean ====
section
/-! DEFINITION. The output records as instructions: the row of a record runs where the block produces
that record, and does what produces it (R76, assumption 6).

Five records stand in the trace of a context, and only a `SCAN_STEP` of that context puts them there
(R140, R182). The other four are results of `DECODE` used on its own, and go to its caller. -/

namespace Sys2Proof.Machine

/-- The `SCAN_STEP` that emits the record `r`; no transition where the step does not emit it. -/
def stepEmitting (p : Params) (r : Record) (c : Ctx) : CtxResult :=
  if (scanStep p c).out = c.out ++ [r] then .next (scanStep p c) else .refused .outcomeNotTaken

/-- A record of the current context's trace: the step of its scan that emits it (R76, R182). -/
def State.emitRecord (s : State) (r : Record) : Result := s.onCtx (stepEmitting s.cfg r)

/-- A record that only a caller of `DECODE` sees: `DECODE(raw)` returns it, and no trace holds it
(R140). No transition where `DECODE(raw)` is another record. -/
def State.returnRecord (s : State) (raw : List Byte) (r : Record) : Result :=
  if decodeFrame s.cfg raw = r then s.respond (.record r) else .refused .outcomeNotTaken

/-! ## The meanings -/

/-- `REC.FRAME_OK`: the `EMIT` of a slice that decodes to it (R76, R137). -/
def execRecFrameOk (f : FrameFields) (s : State) : Result := s.emitRecord (.frameOk f)

/-- `REC.CHECKSUM_ERROR`: the `EMIT` of a slice that decodes to it (R76, R138). -/
def execRecChecksumError (raw : List Byte) (received computed : Word16) (s : State) : Result :=
  s.emitRecord (.checksumError raw received computed)

/-- `REC.FRAMING_ERROR.TRUNCATED`: a result of `DECODE` on its own (R132, R140). -/
def execRecTruncated (raw : List Byte) (s : State) : Result :=
  s.returnRecord raw (.framingError .truncated raw)

/-- `REC.FRAMING_ERROR.BAD_START`: a result of `DECODE` on its own (R133, R140). -/
def execRecBadStart (raw : List Byte) (s : State) : Result :=
  s.returnRecord raw (.framingError .badStart raw)

/-- `REC.FRAMING_ERROR.LENGTH_MISMATCH`: a result of `DECODE` on its own (R134, R140). -/
def execRecLengthMismatch (raw : List Byte) (s : State) : Result :=
  s.returnRecord raw (.framingError .lengthMismatch raw)

/-- `REC.FRAMING_ERROR.BAD_STOP`: a result of `DECODE` on its own (R135, R140). -/
def execRecBadStop (raw : List Byte) (s : State) : Result :=
  s.returnRecord raw (.framingError .badStop raw)

/-- `REC.FRAMING_ERROR.LENGTH_TOO_SHORT`: the `EMIT` of a slice that decodes to it (R76, R136). -/
def execRecLengthTooShort (raw : List Byte) (s : State) : Result :=
  s.emitRecord (.framingError .lengthTooShort raw)

/-- `REC.ANOMALY.GARBAGE`: the `SKIP` that raises it (R76, R109). -/
def execRecGarbage (s : State) : Result := s.emitRecord (.anomaly .garbage)

/-- `REC.ANOMALY.STOP_MISMATCH`: the `DROP` (R76, R114). -/
def execRecStopMismatch (s : State) : Result := s.emitRecord (.anomaly .stopMismatch)

/-! ## Bringing an output about, for the host's question -/

/-- Bytes whose scan emits the record that a transfer carries: the slice it carries, a byte that
begins no marker, a presumed frame without its stop marker. None for every other transfer. -/
def causeOf : Xfer → Option (List Byte)
  | .outRecord rc sub f =>
    match rc.toNat, sub.toNat with
    | 0, 0 => some f.raw
    | 1, 0 => some f.raw
    | 2, 5 => some f.raw
    | 3, 1 => some [0x00]
    | 3, 2 => some [0x78, 0x78, 0x00, 0x00, 0x00]
    | _, _ => none
  | .inBeat _ => none
  | .rstPin _ => none
  | .wire _ => none
  | .aqRequest _ => none
  | .aqResponse _ => none
  | .call _ => none

/-- The same state with `bytes` in the buffer of the current context, out of an episode and out of
reset. -/
def State.holding (s : State) (bytes : List Byte) : State :=
  { s with
    rst := false
    ctxs := s.ctxs.modify s.cur fun c => { c with buf := bytes, desync := false } }

/-- The same state with what causes an output: the bytes of a record of the trace in the current
buffer, or an acknowledgment first on `AQ`. The state itself for every other transfer. -/
def State.withCause (s : State) (x : Xfer) : State :=
  match x with
  | .aqResponse w => { s with aq := responseBytes w :: s.aq }
  | .outRecord _ _ _ =>
    match causeOf x with
    | none => s
    | some bytes => s.holding bytes
  | .inBeat _ => s
  | .rstPin _ => s
  | .wire _ => s
  | .aqRequest _ => s
  | .call _ => s

end Sys2Proof.Machine
end

