-- ==== Sys2Proof/Machine/Wire.lean ====
section
/-! DEFINITION. The wire format as instructions: a frame, or what is no frame, arrives on the
connection of the current context, and its bytes are delivered as `PUSH` beats (R2, R73, R201). -/

namespace Sys2Proof.Machine

/-- `FRAME.STD`: the bytes of a presumed standard frame arrive (R65, R73, R201). -/
def execFrameStd (body : FrameBody) (stop0 stop1 : Byte) (s : State) : Result :=
  s.deliver (frameBytes .std body stop0 stop1)

/-- `FRAME.EXT`: the bytes of a presumed extended-length frame arrive (R66, R73, R201). -/
def execFrameExt (body : FrameBody) (stop0 stop1 : Byte) (s : State) : Result :=
  s.deliver (frameBytes .ext body stop0 stop1)

/-- `FRAME.NOMARK`: bytes that begin no marker arrive (R73, R109). -/
def execFrameNomark (b0 : Byte) (b1 : Option Byte) (s : State) : Result :=
  s.deliver (nomarkBytes b0 b1)

end Sys2Proof.Machine
end

