-- ==== Sys2Proof/Machine/Dispatch.lean ====
section
/-! DEFINITION. `exec`: one arm for each instruction, each one call of its meaning. -/

namespace Sys2Proof.Machine

def exec (i : Instr) (s : State) : Host.Outcome State Fault Refusal :=
  match i with
  | .push d => Sys2Proof.Machine.execPush d s
  | .clr x => Sys2Proof.Machine.execClr x s
  | .inReserved x => Sys2Proof.Machine.execInReserved x s
  | .rst => Sys2Proof.Machine.execRst s
  | .feed bytes => Sys2Proof.Machine.execFeed bytes s
  | .frameStd body stop0 stop1 => Sys2Proof.Machine.execFrameStd body stop0 stop1 s
  | .frameExt body stop0 stop1 => Sys2Proof.Machine.execFrameExt body stop0 stop1 s
  | .frameNomark b0 b1 => Sys2Proof.Machine.execFrameNomark b0 b1 s
  | .encack p sn => Sys2Proof.Machine.execEncack p sn s
  | .ack p sn c => Sys2Proof.Machine.execAck p sn c s
  | .recFrameOk f => Sys2Proof.Machine.execRecFrameOk f s
  | .recChecksumError raw received computed => Sys2Proof.Machine.execRecChecksumError raw received computed s
  | .recTruncated raw => Sys2Proof.Machine.execRecTruncated raw s
  | .recBadStart raw => Sys2Proof.Machine.execRecBadStart raw s
  | .recLengthMismatch raw => Sys2Proof.Machine.execRecLengthMismatch raw s
  | .recBadStop raw => Sys2Proof.Machine.execRecBadStop raw s
  | .recLengthTooShort raw => Sys2Proof.Machine.execRecLengthTooShort raw s
  | .recGarbage => Sys2Proof.Machine.execRecGarbage s
  | .recStopMismatch => Sys2Proof.Machine.execRecStopMismatch s
  | .scan => Sys2Proof.Machine.execScan s
  | .scanStep => Sys2Proof.Machine.execScanStep s
  | .waitEmpty => Sys2Proof.Machine.execWaitEmpty s
  | .waitHalf => Sys2Proof.Machine.execWaitHalf s
  | .skip => Sys2Proof.Machine.execSkip s
  | .waitHdr => Sys2Proof.Machine.execWaitHdr s
  | .waitBody => Sys2Proof.Machine.execWaitBody s
  | .emit => Sys2Proof.Machine.execEmit s
  | .drop => Sys2Proof.Machine.execDrop s
  | .decode frame => Sys2Proof.Machine.execDecode frame s
  | .crc16 bytes => Sys2Proof.Machine.execCrc16 bytes s
  | .crcUpdate c b => Sys2Proof.Machine.execCrcUpdate c b s
  | .verify bytes expected => Sys2Proof.Machine.execVerify bytes expected s

end Sys2Proof.Machine
end

