-- ==== Sys2Proof/Machine/Step.lean ====
section
/-! DEFINITION. One step of the block: the next transfer that is accepted, decoded and executed. -/

namespace Sys2Proof.Machine

/-- One step. The next offer that is accepted leaves the queue and its channel is served; the
instruction it decodes to is executed. The `rst` pin at 0 releases the reset (R200). With nothing
to accept the block waits (R204). -/
def step (s : State) : Host.Outcome State Fault Refusal :=
  match s.takeOffer with
  | none => .next s.idle
  | some (x, s') =>
    match decode x with
    | .ok i => exec i s'
    | .error .pinLow => .next s'.releaseRst
    | .error e => .refused (.undecodable e)

/-- The same state with a transfer offered before all others on the current channel, and with `rst`
at 0 where a beat could not be accepted otherwise (R101). -/
def State.offerFirst (s : State) (x : Xfer) : State :=
  { s with rst := s.rst && !x.isBeat, pend := ⟨s.cur, x⟩ :: s.pend }

/-- The state in which `step` fetches and runs the instruction whose table bits are `w`. The byte
stream plays the part of the program (R2), so the row of a record of the trace has the bytes that
cause it in the buffer, and the row of an acknowledgment has it standing on `AQ` (assumption 15). -/
def State.withFetchWord (s : State) (nbits w : Nat) : State :=
  match tableXfer nbits w with
  | none => s
  | some x => (s.withCause x).offerFirst x

end Sys2Proof.Machine
end

