-- ==== Sys2Proof/Machine/Pseudo.lean ====
section
/-! DEFINITION. The pseudo-operations of R80 and their expansions into instructions, and the
execution of a sequence of instructions on the current context (a "program" of the block). -/

namespace Sys2Proof.Machine

/-- The calls of the source, as R80 lists them; the context of `feed` is the current one (R100). -/
inductive Pseudo where
  /-- `FEED(bytes)`, and `feed(connectionId, bytes)` -/
  | feed (bytes : List Byte)
  /-- `OPEN`, the transport's `onConnect` -/
  | opened
  /-- `CLOSE`, the transport's `onDisconnect` -/
  | closed
  /-- `compute(bytes)` -/
  | compute (bytes : List Byte)
  /-- `verify(bytes, expected)` -/
  | verify (bytes : List Byte) (expected : Word16)
  /-- `decode(frameBytes)` -/
  | decode (frame : List Byte)
  /-- `encodeAck(protocolNumber, serialNumber)` -/
  | encodeAck (p : Byte) (s : Word16)
  deriving DecidableEq, Repr

/-- The expansion of R80. The data of the `CLR` beat is ignored, so 0 is written for it (R102). -/
def Pseudo.expand : Pseudo → List Instr
  | .feed bytes => bytes.map .push
  | .opened => [.clr 0]
  | .closed => [.clr 0]
  | .compute bytes => [.crc16 bytes]
  | .verify bytes expected => [.verify bytes expected]
  | .decode frame => [.decode frame]
  | .encodeAck p s => [.encack p s]

/-- Execute instructions one after the other, stopping at the first fault or refusal. -/
def execAll : List Instr → State → Result
  | [], s => .next s
  | i :: is, s =>
    match exec i s with
    | .next s' => execAll is s'
    | .fault r => .fault r
    | .refused r => .refused r

end Sys2Proof.Machine
end

