-- ==== Sys2Proof/Machine/Views.lean ====
section
/-! DEFINITION. The derived views: what a streaming implementation would hold in registers, and the
phase. Each is a function of `buf`, defined when the bytes it reads are present (R25, R26). -/

namespace Sys2Proof.Machine

/-- `LEVEL` (R25). -/
def levelOf (buf : List Byte) : Nat := buf.length

/-- `VAR` (R25). -/
def varOf : List Byte → Option Variant
  | b0 :: b1 :: _ => variantOf b0 b1
  | _ => none

/-- `LFS` (R25). -/
def lfsOf (buf : List Byte) : Option Nat := (varOf buf).map Variant.lfs

/-- `LEN` (R25). -/
def lenOf (buf : List Byte) : Option Nat := (varOf buf).bind fun v => lengthOf v buf

/-- `TOTAL` (R25). -/
def totalOf (buf : List Byte) : Option Nat :=
  (varOf buf).bind fun v => (lengthOf v buf).map v.total

/-- The bytes of the checksummed range that are already in `buf`: none before there is a marker, and
the bytes of the length field as they arrive if `CRC_RANGE` counts them (R70, R170). The offsets of
R70 are taken for every `length`, and a range whose end lies before its start is empty: R7 and R72
leave that open (DESIGN CHOICE, assumption 21). -/
def rangeSoFar (r : CrcRange) (buf : List Byte) : List Byte :=
  match varOf buf with
  | none => []
  | some v =>
    match lengthOf v buf with
    | none => buf.drop (rangeStart r v)
    | some n => rangeOf r v n buf

/-- The register that an implementation updates as each byte of the range arrives: `CRC_INIT` before
the first of them, then `c` of R162 before output reflection and final xor (R170). -/
def crcRegister (p : Params) (buf : List Byte) : Word16 := crcFold p p.crcInit (rangeSoFar p.crcRange buf)

/-- The view `CRC_ACC`: that register, defined once `LEN` is (R25, R33). Before that R170 still gives
the register, `crcRegister`, and R25 gives no view (DESIGN CHOICE, assumption 22). -/
def crcAccOf (p : Params) (buf : List Byte) : Option Word16 :=
  (lenOf buf).map fun _ => crcRegister p buf

/-- The phase, which sequences a context between beats (R26). -/
inductive Phase where
  | idle | half | hdr | body
  deriving DecidableEq, Repr

/-- The phase of a buffer, by its shape; none for a buffer that no beat leaves behind (R24, R26). -/
def phaseOf (buf : List Byte) : Option Phase :=
  match buf with
  | [] => some .idle
  | [b] => if isMarkByte b then some .half else none
  | _ :: _ :: _ =>
    match varOf buf with
    | none => none
    | some v =>
      if buf.length < 2 + v.lfs then some .hdr
      else
        match lengthOf v buf with
        | none => none
        | some n => if buf.length - (2 + v.lfs) < n + 2 then some .body else none

end Sys2Proof.Machine
end

