-- ==== Sys2Proof/Safety.lean ====
section
/-! DEFINITION. What counts as a safe run, in the terms the statements use. -/

namespace Sys2Proof.Machine

/-- The current channel serves context `c`, and `rst` is 0: the block accepts what is offered. -/
def State.Serves (s : State) (c : Ctx) : Prop := s.rst = false ∧ s.ctxs[s.cur]? = some c

/-- `buf` has one of the four shapes of R24. -/
abbrev Settled (buf : List Byte) : Prop := (phaseOf buf).isSome = true

/-- The invariant of the block: `N_CTX` contexts; each buffer has a shape of R24; and while `rst` is
1 every context is at its reset values (R200). -/
def State.Inv (s : State) : Prop :=
  s.ctxs.length = s.cfg.nCtx ∧ (∀ c ∈ s.ctxs, Settled c.buf) ∧
    (s.rst = true → ∀ c ∈ s.ctxs, c = Ctx.reset)

/-- A presumed frame: a marker, a length field and exactly the `total` bytes they predict (R12). -/
def PresumedFrame (v : Variant) (n : Nat) (F : List Byte) : Prop :=
  headOf F = .frame v n ∧ F.length = v.total n

/-- A slice: a presumed frame that ends in the stop marker (R12, R119). -/
def IsSlice (F : List Byte) : Prop :=
  ∃ v n, PresumedFrame v n F ∧ stopTest F F.length = true

/-- The records that can appear in the trace of a context: anomalies, and what `DECODE` returns for
a slice (R140, R182). -/
def TraceRecord (p : Params) (r : Record) : Prop :=
  (∃ sub, r = .anomaly sub) ∨ ∃ F, IsSlice F ∧ r = decodeFrame p F

/-- The frame of an acknowledgment that was transferred; none for the other values. -/
def Response.frame? : Response → Option (List Byte)
  | .ack frame => some frame
  | .record _ => none
  | .word _ => none
  | .truth _ => none

/-- The acknowledgments sent so far: those transferred, then those that stand on `AQ` (R77, R145). -/
def State.acks (s : State) : List (List Byte) := s.resp.filterMap Response.frame? ++ s.aq

/-- Every record in every trace is one that the block can produce, and every acknowledgment is one
that `ENCACK` answers (R142). -/
def State.TraceInv (s : State) : Prop :=
  (∀ c ∈ s.ctxs, ∀ r ∈ c.out, TraceRecord s.cfg r) ∧
    ∀ f ∈ s.acks, ∃ p sn, f = encAck s.cfg p sn

/-- The record that an output row carries; none for every other instruction (R76). -/
def recordOf : Instr → Option Record
  | .recFrameOk f => some (.frameOk f)
  | .recChecksumError raw received computed => some (.checksumError raw received computed)
  | .recTruncated raw => some (.framingError .truncated raw)
  | .recBadStart raw => some (.framingError .badStart raw)
  | .recLengthMismatch raw => some (.framingError .lengthMismatch raw)
  | .recBadStop raw => some (.framingError .badStop raw)
  | .recLengthTooShort raw => some (.framingError .lengthTooShort raw)
  | .recGarbage => some (.anomaly .garbage)
  | .recStopMismatch => some (.anomaly .stopMismatch)
  | .push _ => none
  | .clr _ => none
  | .inReserved _ => none
  | .rst => none
  | .feed _ => none
  | .frameStd _ _ _ => none
  | .frameExt _ _ _ => none
  | .frameNomark _ _ => none
  | .encack _ _ => none
  | .ack _ _ _ => none
  | .scan => none
  | .scanStep => none
  | .waitEmpty => none
  | .waitHalf => none
  | .skip => none
  | .waitHdr => none
  | .waitBody => none
  | .emit => none
  | .drop => none
  | .decode _ => none
  | .crc16 _ => none
  | .crcUpdate _ _ => none
  | .verify _ _ => none

/-- The rows that read and write no context: the acknowledgment channel, the pure functions, and the
four results of `DECODE` that only its caller sees (R77, R130, R140, R160, R197). -/
def isStateless : Instr → Bool
  | .encack _ _ => true
  | .ack _ _ _ => true
  | .decode _ => true
  | .crc16 _ => true
  | .crcUpdate _ _ => true
  | .verify _ _ => true
  | .push _ => false
  | .clr _ => false
  | .inReserved _ => false
  | .rst => false
  | .feed _ => false
  | .frameStd _ _ _ => false
  | .frameExt _ _ _ => false
  | .frameNomark _ _ => false
  | .recFrameOk _ => false
  | .recChecksumError _ _ _ => false
  | .recTruncated _ => true
  | .recBadStart _ => true
  | .recLengthMismatch _ => true
  | .recBadStop _ => true
  | .recLengthTooShort _ => false
  | .recGarbage => false
  | .recStopMismatch => false
  | .scan => false
  | .scanStep => false
  | .waitEmpty => false
  | .waitHalf => false
  | .skip => false
  | .waitHdr => false
  | .waitBody => false
  | .emit => false
  | .drop => false

/-- The rows that act on the context of the current channel: all but `RST`, which acts on every
context, `IN.RESERVED`, which has no meaning, and the stateless rows. -/
def actsOnContext (i : Instr) : Bool :=
  !isStateless i && i != .rst && match i with
    | .inReserved _ => false
    | _ => true

/-- The reset values of R33 for a context: the state, the derived views, and `STATUS`. -/
def AtReset (c : Ctx) : Prop :=
  c.buf = [] ∧ c.desync = false ∧ phaseOf c.buf = some .idle ∧ levelOf c.buf = 0 ∧
    varOf c.buf = none ∧ lfsOf c.buf = none ∧ lenOf c.buf = none ∧ totalOf c.buf = none ∧
    (∀ p, crcAccOf p c.buf = none) ∧ c.status = ⟨0, 0, 0⟩

/-- The bytes of the checksummed range, from the values of the fields: the length field (unless
`CRC_RANGE` leaves it out), `protocolNumber`, payload and `serialNumber` (R70). -/
def rangeBytes (r : CrcRange) (v : Variant) (proto : Byte) (payload : List Byte) (serial : Word16) :
    List Byte :=
  (match r with
    | .fromLength => v.lengthBytes (payload.length + Config.minLength)
    | .fromProtocol => []) ++ proto :: (payload ++ bytes16 serial)

/-- The `GARBAGE` record that a discarded byte owes: one in each desync episode (R23, R109). -/
def dueGarbage (desync : Bool) : List Record := if desync then [] else [.anomaly .garbage]

/-- The bytes that a row delivers to the current context (R103, R104, R201). -/
def deliveredBytes : Instr → List Byte
  | .push d => [d]
  | .feed bytes => bytes
  | .frameStd body e0 e1 => frameBytes .std body e0 e1
  | .frameExt body e0 e1 => frameBytes .ext body e0 e1
  | .frameNomark b0 b1 => nomarkBytes b0 b1
  | _ => []

/-- The rows of the four waits (R107, R108, R110, R111). -/
def waitRows : List Instr := [.waitEmpty, .waitHalf, .waitHdr, .waitBody]

/-- The rows of the seven outcomes of `SCAN_STEP` (R106). -/
def outcomeRows : List Instr := [.waitEmpty, .waitHalf, .skip, .waitHdr, .waitBody, .emit, .drop]

end Sys2Proof.Machine
end

