-- ==== Sys2Proof/Certificates/Slice0/Obligations.lean ====
section
/-! DEFINITION. The statements for the provers, in the order of the spec: encodings, the step, reset,
the input beats, the scan, frames on the wire, the codec, the checksum, the whole machine. -/

open Sys2Proof Sys2Proof.Machine

/-! ## Encodings (`30_encoding.md`) -/

/-- Decode and encode agree: the transfer of a well-formed instruction decodes to it. -/
def Obligations.DecodeOfEncodeIsIdentity : Prop :=
  ∀ i : Instr, i.wf = true → decode (encode i) = .ok i

/-- R75: `op` 00 is `PUSH`, 01 is `CLR`, 10 and 11 are reserved, whatever `data` is; and `RST` is
the level input at 1, not a beat. -/
def Obligations.InputBeatOpcodes : Prop :=
  ∀ d : Byte,
    decode (.inBeat ((0b00 : BitVec 2) ++ d)) = .ok (.push d) ∧
      decode (.inBeat ((0b01 : BitVec 2) ++ d)) = .ok (.clr d) ∧
      decode (.inBeat ((0b10 : BitVec 2) ++ d)) = .ok (.inReserved ((0 : BitVec 1) ++ d)) ∧
      decode (.inBeat ((0b11 : BitVec 2) ++ d)) = .ok (.inReserved ((1 : BitVec 1) ++ d)) ∧
      (∀ w, decode (.inBeat w) ≠ .ok .rst) ∧ decode (.rstPin 1) = .ok .rst

/-- R75, R77, R65, R66, R76: words written out from the encodings decode to what they stand for
(a sanity statement). -/
def Obligations.SampleWordsDecode : Prop :=
  decode (.inBeat 0b0001111000) = .ok (.push 0x78) ∧
    decode (.inBeat 0b0100000000) = .ok (.clr 0) ∧
    decode (.aqRequest 0x13ABCD) = .ok (.encack 0x13 0xABCD) ∧
    decode (.aqResponse 0x787805010001D9DC0D0A) = .ok (.ack 0x01 0x0001 0xD9DC) ∧
    decode (.wire [0x78, 0x78, 0x05, 0x23, 0x00, 0x02, 0x5D, 0xC4, 0x0D, 0x0A]) =
      .ok (.frameStd (.fields 0x23 [] 0x0002 0x5DC4) 0x0D 0x0A) ∧
    decode (.wire [0x79, 0x79, 0x00, 0x08, 0x10, 0xAA, 0xBB, 0xCC, 0x00, 0x03, 0x85, 0x68, 0x0D, 0x0A]) =
      .ok (.frameExt (.fields 0x10 [0xAA, 0xBB, 0xCC] 0x0003 0x8568) 0x0D 0x0A) ∧
    decode (.outRecord 0b11 0b010 {}) = .ok .recStopMismatch

/-- R76: exactly nine tags are produced, `FRAME_OK` only with a payload of `length - 5` bytes and a
slice of `total` bytes; every other tag is no record (U20). -/
def Obligations.RecordTagsProduced : Prop :=
  ∀ (rc : BitVec 2) (sub : BitVec 3) (f : RecordFields),
    (∃ i, decode (.outRecord rc sub f) = .ok i) ↔
      (rc, sub) ∈ [((0, 0) : BitVec 2 × BitVec 3), (1, 0), (2, 1), (2, 2), (2, 3), (2, 4), (2, 5),
        (3, 1), (3, 2)] ∧
      ((rc, sub) = (0, 0) → f.payload.length + 5 = f.length.toNat ∧
        f.raw.length = f.variant.total f.length.toNat)

/-! ## The step -/

/-- A step runs the decoded instruction: the first offer that is accepted (a beat only while `rst`
is 0) leaves the queue, its channel is served, and the step is `exec` of what it decodes to. The
queue and the channel are the model's (assumption 4). -/
def Obligations.StepRunsDecodedInstruction : Prop :=
  ∀ (s : State) (o : Offer) (rest : List Offer) (i : Instr),
    s.pend = o :: rest → (s.rst = true → o.xfer.isBeat = false) → decode o.xfer = .ok i →
      step s = exec i { s with cur := o.ch, pend := rest }

/-- R101, R200, R213: while `rst` is 1 the beats offered first stay offered, in their order, and the
first transfer behind them that is no beat is executed. The queue is the model's (assumption 4). -/
def Obligations.BeatsStayOfferedWhileReset : Prop :=
  ∀ (s : State) (beats rest : List Offer) (o : Offer) (i : Instr),
    s.rst = true → (∀ b ∈ beats, b.xfer.isBeat = true) → o.xfer.isBeat = false →
      s.pend = beats ++ o :: rest → decode o.xfer = .ok i →
        step s = exec i { s with cur := o.ch, pend := beats ++ rest }

/-- R200, R204: with nothing to accept the block waits, and nothing changes (assumption 20). -/
def Obligations.WaitingChangesNothing : Prop :=
  ∀ s : State, s.Inv → (s.rst = true → ∀ o ∈ s.pend, o.xfer.isBeat = true) →
    (s.rst = false → s.pend = []) → step s = .next s

/-- R200: the `rst` pin at 0 releases the reset: the step takes that offer and serves its channel, and
nothing else changes. The level, the queue and the channel are the model's (assumptions 3 and 4). -/
def Obligations.PinLowReleasesReset : Prop :=
  ∀ (s : State) (ch : Nat) (rest : List Offer),
    s.pend = ⟨ch, .rstPin 0⟩ :: rest →
      step s = .next { s with rst := false, cur := ch, pend := rest }

/-! ## Reset (`10_state.md`, `70_reset_and_hazards.md`) -/

/-- R33, R101: what `RST` and `CLR` leave: the state, the derived views, `STATUS`; the trace is
emptied by `RST` only, which completes from every state; the parameters stay. -/
def Obligations.ResetValuesAfterRstAndClr : Prop :=
  ∀ s : State,
    (∃ t, exec .rst s = .next t ∧ t.cfg = s.cfg ∧ t.ctxs.length = s.ctxs.length ∧
      ∀ c ∈ t.ctxs, AtReset c ∧ c.out = []) ∧
    ∀ (x : Byte) (c : Ctx), s.Serves c →
      ∃ t c', exec (.clr x) s = .next t ∧ t.cfg = s.cfg ∧ t.ctxs[s.cur]? = some c' ∧
        AtReset c' ∧ c'.out = c.out

/-- R102: `CLR`, the beat `01xxxxxxxx`, completes on a served context: buffer and `desync` cleared,
the trace unchanged, and nothing else changes, whatever the ignored data is. -/
def Obligations.ClrEmptiesItsContext : Prop :=
  ∀ (s : State) (c : Ctx) (x : Byte), s.Serves c →
    decode (.inBeat ((0b01 : BitVec 2) ++ x)) = .ok (.clr x) ∧
      exec (.clr x) s = .next (s.setCtx { buf := [], desync := false, out := c.out })

/-- R101, R200: while `rst` is 1 every row on a context leaves the block as it is held. That the row
then answers a next state is the model's choice (assumption 3): R101 and R200 say only that the
contexts are held and that no beat is accepted. -/
def Obligations.NothingAcceptedWhileReset : Prop :=
  ∀ (s : State) (i : Instr), s.Inv → s.rst = true → actsOnContext i = true → exec i s = .next s

/-- R197: a channel that belongs to no context: every row on a context faults by name. The fault is
the model's (assumption 19). -/
def Obligations.MissingContextFaults : Prop :=
  ∀ (s : State) (i : Instr), s.rst = false → s.ctxs[s.cur]? = none → actsOnContext i = true →
    exec i s = .fault .noSuchContext

/-! ## `PUSH`, phase by phase (R26, R103) -/

/-- R26 phase `IDLE`, R108, R109: into an empty buffer a marker byte is held, and any other byte is
discarded as garbage. -/
def Obligations.PushIntoEmptyBuffer : Prop :=
  ∀ (s : State) (c : Ctx) (d : Byte), s.Serves c → c.buf = [] → 0 < s.cfg.bufCap →
    exec (.push d) s = .next (s.setCtx
      (if d = 0x78 ∨ d = 0x79 then { c with buf := [d] }
        else { buf := [], desync := true, out := c.out ++ dueGarbage c.desync }))

/-- R26 phase `HALF`, R108 to R110: the same byte again completes the marker; a different byte has
the held one discarded, and is then held or discarded itself. -/
def Obligations.PushAfterHalfMarker : Prop :=
  ∀ (s : State) (c : Ctx) (b d : Byte), s.Serves c → c.buf = [b] → (b = 0x78 ∨ b = 0x79) →
    1 < s.cfg.bufCap →
      exec (.push d) s = .next (s.setCtx
        (if d = b then { c with buf := [b, d] }
          else { buf := if d = 0x78 ∨ d = 0x79 then [d] else [], desync := true,
                 out := c.out ++ dueGarbage c.desync }))

/-- R26 phases `HDR` and `BODY`, R110, R111: a byte that does not bring the buffer to `total` is
appended, and nothing else happens. -/
def Obligations.PushIntoPartialFrame : Prop :=
  ∀ (s : State) (c : Ctx) (d : Byte), s.Serves c → Settled c.buf → 2 ≤ c.buf.length →
    c.buf.length < s.cfg.bufCap →
      (∀ t, totalOf (c.buf ++ [d]) = some t → c.buf.length + 1 < t) →
        exec (.push d) s = .next (s.setCtx { c with buf := c.buf ++ [d] })

/-- R26 phase `BODY`, R112 to R114: the byte that brings the buffer to `total` ends the presumed
frame: with `0D 0A` at its end the record of `DECODE`, otherwise a stop mismatch. -/
def Obligations.PushCompletesFrame : Prop :=
  ∀ (s : State) (c : Ctx) (d : Byte), s.Serves c → Settled c.buf →
    totalOf c.buf = some (c.buf.length + 1) → c.buf.length < s.cfg.bufCap →
      exec (.push d) s = .next (s.setCtx
        (if (c.buf ++ [d]).drop (c.buf.length - 1) = [0x0D, 0x0A] then
          { buf := [], desync := false, out := c.out ++ [decodeFrame s.cfg (c.buf ++ [d])] }
        else { buf := [], desync := true, out := c.out ++ [.anomaly .stopMismatch] }))

/-- R184: from a buffer between beats a single `PUSH` emits no record or one. -/
def Obligations.PushEmitsAtMostOneRecord : Prop :=
  ∀ (p : Params) (d : Byte) (c c' : Ctx), Settled c.buf → push p d c = some c' →
    c'.out = c.out ∨ ∃ r, c'.out = c.out ++ [r]

/-- R24, R103: between beats, under legal parameters, every delivery of bytes is accepted, and
leaves the invariant. -/
def Obligations.DeliveriesAreAccepted : Prop :=
  ∀ (s : State), s.Inv → s.cfg.Legal → s.rst = false → s.cur < s.ctxs.length →
    (∀ d, ∃ t, exec (.push d) s = .next t ∧ t.Inv) ∧
    (∀ bytes, ∃ t, exec (.feed bytes) s = .next t ∧ t.Inv) ∧
    (∀ body e0 e1, ∃ t, exec (.frameStd body e0 e1) s = .next t ∧ t.Inv) ∧
    (∀ body e0 e1, ∃ t, exec (.frameExt body e0 e1) s = .next t ∧ t.Inv) ∧
    ∀ b0 b1, ∃ t, exec (.frameNomark b0 b1) s = .next t ∧ t.Inv

/-- R111, R204, R205: while fewer than `total` bytes have arrived, whatever they are, they are kept
and no record is emitted. -/
def Obligations.PartialFrameWaits : Prop :=
  ∀ (s : State) (c : Ctx) (bytes : List Byte) (t : Nat), s.Serves c → totalOf c.buf = some t →
    c.buf.length + bytes.length < t → c.buf.length + bytes.length < s.cfg.bufCap →
      exec (.feed bytes) s = .next (s.setCtx { c with buf := c.buf ++ bytes })

/-- R118: an `IN` beat with `op` 10 or 11 is reserved and has no transition: the model refuses it in
every state. -/
def Obligations.ReservedBeatIsRefused : Prop :=
  ∀ w : BitVec 10, w.getLsbD 9 = true →
    ∃ x, decode (.inBeat w) = .ok (.inReserved x) ∧
      ∀ s : State, exec (.inReserved x) s = .refused .reservedBeat

/-! ## `FEED` and chunking -/

/-- R104: `FEED bytes` is its `PUSH` beats one after the other. -/
def Obligations.FeedIsItsPushBeats : Prop :=
  ∀ (s : State) (c : Ctx) (bytes : List Byte), s.Serves c →
    exec (.feed bytes) s = execAll (bytes.map .push) s

/-- R116: however a stream is cut into deliveries, the trace and the state are the same. -/
def Obligations.ChunkingDoesNotMatter : Prop :=
  ∀ (s : State) (c : Ctx) (chunks : List (List Byte)), s.Serves c →
    execAll (chunks.map .feed) s = exec (.feed chunks.flatten) s

/-- R117: appending the whole delivery and then scanning gives the state and the records of the
byte-at-a-time definition. -/
def Obligations.WholeDeliveryScanAgrees : Prop :=
  ∀ (p : Params) (c : Ctx) (bytes : List Byte), p.Legal → Settled c.buf →
    feed p bytes c = some (feedWhole p bytes c)

/-! ## The scan -/

/-- R105, R115: `SCAN` completes; it is at most `|buf|` steps, none of them a wait, and then a wait. -/
def Obligations.ScanIsStepsUntilAWait : Prop :=
  ∀ (s : State) (c : Ctx), s.Serves c →
    ∃ k, k ≤ c.buf.length ∧
      exec .scan s = .next (s.setCtx ((scanStep s.cfg)^[k] c)) ∧
      (∀ j < k, (scanOutcome ((scanStep s.cfg)^[j] c).buf).isWait = false) ∧
      (scanOutcome ((scanStep s.cfg)^[k] c).buf).isWait = true

/-- R24, R21, R29: a scan leaves one of the four shapes, each of at most 65540 bytes; so under legal
parameters the invariant keeps every buffer within its capacity. In such a context `STATUS` says
whether it is in an episode, whether it holds a byte, and how many, with no wrap in 17 bits. -/
def Obligations.ScanLeavesABoundedShape : Prop :=
  (∀ (p : Params) (c : Ctx), Settled (scan p c).buf) ∧
    (∀ buf : List Byte, Settled buf → buf.length ≤ 65540) ∧
    (∀ s : State, s.Inv → s.cfg.Legal → ∀ c ∈ s.ctxs, Memory.wf s.cfg.bufCap c.buf = true) ∧
    ∀ c : Ctx, Settled c.buf →
      (c.status.desync = 1 ↔ c.desync = true) ∧ (c.status.isPartial = 1 ↔ c.buf ≠ []) ∧
        c.status.level.toNat = c.buf.length

/-- R106: `SCAN_STEP` completes and is exactly one of the seven outcomes; the rows of the other six
are refused by name. -/
def Obligations.ScanStepTakesExactlyOneOutcome : Prop :=
  ∀ (s : State) (c : Ctx), s.Serves c →
    ∃ i ∈ outcomeRows, ∃ t, exec .scanStep s = .next t ∧ exec i s = .next t ∧
      ∀ j ∈ outcomeRows, j ≠ i → exec j s = .refused .outcomeNotTaken

/-- R121, R115: how far each outcome moves the head of the buffer. -/
def Obligations.HeadMovesForward : Prop :=
  ∀ (p : Params) (c : Ctx),
    match scanOutcome c.buf with
    | .skip => (scanStep p c).buf = c.buf.drop 1 ∧ 1 ≤ c.buf.length
    | .emit total => (scanStep p c).buf = c.buf.drop total ∧ 5 ≤ total ∧ total ≤ c.buf.length
    | .drop total => (scanStep p c).buf = c.buf.drop total ∧ 5 ≤ total ∧ total ≤ c.buf.length
    | _ => scanStep p c = c

/-- R107, R108, R110, R111: the four waits complete under their conditions and change nothing. -/
def Obligations.WaitsChangeNothing : Prop :=
  ∀ (s : State) (c : Ctx), s.Serves c →
    (c.buf = [] → exec .waitEmpty s = .next s) ∧
    (∀ b, c.buf = [b] → (b = 0x78 ∨ b = 0x79) → exec .waitHalf s = .next s) ∧
    (∀ v : Variant, c.buf.take 2 = v.mark → c.buf.length < 2 + v.lfs → exec .waitHdr s = .next s) ∧
    ∀ (v : Variant) (n : Nat), c.buf.take 2 = v.mark → lengthOf v c.buf = some n →
      c.buf.length < 2 + v.lfs + n + 2 → exec .waitBody s = .next s

/-- R109: `SKIP` completes where the head is certainly no marker: one byte goes, the episode is
open, and `GARBAGE` is emitted if the episode had not begun. -/
def Obligations.SkipDiscardsOneByte : Prop :=
  ∀ (s : State) (c : Ctx) (b0 : Byte) (rest : List Byte), s.Serves c → c.buf = b0 :: rest →
    ((b0 ≠ 0x78 ∧ b0 ≠ 0x79) ∨ ((b0 = 0x78 ∨ b0 = 0x79) ∧ ∃ b1 tail, rest = b1 :: tail ∧ b1 ≠ b0)) →
      exec .skip s = .next (s.setCtx
        { buf := rest, desync := true, out := c.out ++ dueGarbage c.desync })

/-- R113, R120: `EMIT` completes where a slice stands at the head: the slice goes, the episode ends,
and exactly the record of `DECODE` is emitted. -/
def Obligations.EmitHandsTheSliceToDecode : Prop :=
  ∀ (s : State) (c : Ctx) (v : Variant) (n : Nat) (F rest : List Byte), s.Serves c →
    c.buf = F ++ rest → F.take 2 = v.mark → lengthOf v F = some n →
      F.length = 2 + v.lfs + n + 2 → F.drop (F.length - 2) = [0x0D, 0x0A] →
        exec .emit s = .next (s.setCtx
          { buf := rest, desync := false, out := c.out ++ [decodeFrame s.cfg F] })

/-- R114: `DROP` completes where a presumed frame without its stop marker stands at the head: all
its bytes go, the episode is open, and `STOP_MISMATCH` is emitted every time. -/
def Obligations.DropRemovesThePresumedFrame : Prop :=
  ∀ (s : State) (c : Ctx) (v : Variant) (n : Nat) (F rest : List Byte), s.Serves c →
    c.buf = F ++ rest → F.take 2 = v.mark → lengthOf v F = some n →
      F.length = 2 + v.lfs + n + 2 → F.drop (F.length - 2) ≠ [0x0D, 0x0A] →
        exec .drop s = .next (s.setCtx
          { buf := rest, desync := true, out := c.out ++ [.anomaly .stopMismatch] })

/-! ## Frames on the wire -/

/-- R73, R201: in every state a frame row does what `FEED` of its bytes does. That it is a delivery
is the model's choice (assumption 9). -/
def Obligations.FrameRowsAreDeliveries : Prop :=
  ∀ s : State,
    (∀ body e0 e1, exec (.frameStd body e0 e1) s = exec (.feed (frameBytes .std body e0 e1)) s) ∧
    (∀ body e0 e1, exec (.frameExt body e0 e1) s = exec (.feed (frameBytes .ext body e0 e1)) s) ∧
    ∀ b0 b1, exec (.frameNomark b0 b1) s = exec (.feed (b0 :: b1.toList)) s

/-- R65, R66, R113, R114: a presumed frame that arrives at a frame boundary completes: one record,
the buffer empty, `desync` as the stop test says. A frame row is the delivery of its bytes
(assumption 9). -/
def Obligations.FrameArrivesAtBoundary : Prop :=
  ∀ (s : State) (c : Ctx) (body : FrameBody) (e0 e1 : Byte), s.Serves c → c.buf = [] → s.cfg.Legal →
    (body.wf 255 = true → exec (.frameStd body e0 e1) s = .next (s.setCtx
      (if e0 = 0x0D ∧ e1 = 0x0A then
        { buf := [], desync := false, out := c.out ++ [decodeFrame s.cfg (frameBytes .std body e0 e1)] }
      else { buf := [], desync := true, out := c.out ++ [.anomaly .stopMismatch] }))) ∧
    (body.wf 65535 = true → exec (.frameExt body e0 e1) s = .next (s.setCtx
      (if e0 = 0x0D ∧ e1 = 0x0A then
        { buf := [], desync := false, out := c.out ++ [decodeFrame s.cfg (frameBytes .ext body e0 e1)] }
      else { buf := [], desync := true, out := c.out ++ [.anomaly .stopMismatch] })))

/-- R73, R109: bytes that begin no marker arrive at a frame boundary: garbage is reported when due,
and only a second byte that may begin a marker is kept. The row is the delivery of its one or two
bytes (assumption 9). -/
def Obligations.NomarkArrivesAtBoundary : Prop :=
  ∀ (s : State) (c : Ctx) (b0 : Byte), s.Serves c → c.buf = [] → 1 < s.cfg.bufCap →
    ((b0 ≠ 0x78 ∧ b0 ≠ 0x79) → exec (.frameNomark b0 none) s = .next (s.setCtx
      { buf := [], desync := true, out := c.out ++ dueGarbage c.desync })) ∧
    ∀ b1, (b0 = 0x78 ∨ b0 = 0x79) → b1 ≠ b0 →
      exec (.frameNomark b0 (some b1)) s = .next (s.setCtx
        { buf := if b1 = 0x78 ∨ b1 = 0x79 then [b1] else [], desync := true,
          out := c.out ++ dueGarbage c.desync })

/-! ## Records -/

/-- R76, R140, R182: the row of a record runs where the block produces that record, and does what
produces it. `FRAME_OK`, `CHECKSUM_ERROR` and `LENGTH_TOO_SHORT` are the `EMIT` of a slice that decodes
to them; `GARBAGE` is the `SKIP` that opens an episode, `STOP_MISMATCH` the `DROP`; the other four are
what `DECODE` returns to its caller, in every state, and no trace holds them. Elsewhere the row is refused by name.
That the rows are these transitions is the model's inference (assumption 6). -/
def Obligations.RecordRowsEmit : Prop :=
  (∀ (s : State) (c : Ctx), s.Serves c →
    (∀ (i : Instr) (F rest : List Byte), isStateless i = false → c.buf = F ++ rest → IsSlice F →
      recordOf i = some (decodeFrame s.cfg F) → exec i s = .next (s.setCtx
        { buf := rest, desync := false, out := c.out ++ [decodeFrame s.cfg F] })) ∧
    (c.desync = false → scanOutcome c.buf = .skip → exec .recGarbage s = .next (s.setCtx
      { buf := c.buf.drop 1, desync := true, out := c.out ++ [.anomaly .garbage] })) ∧
    (∀ total, scanOutcome c.buf = .drop total → exec .recStopMismatch s = .next (s.setCtx
      { buf := c.buf.drop total, desync := true, out := c.out ++ [.anomaly .stopMismatch] })) ∧
    ∀ (i : Instr) (r : Record), isStateless i = false → recordOf i = some r →
      (scanStep s.cfg c).out ≠ c.out ++ [r] → exec i s = .refused .outcomeNotTaken) ∧
    ∀ (s : State) (i : Instr) (sub : FramingSub) (raw : List Byte), isStateless i = true →
      recordOf i = some (.framingError sub raw) → exec i s =
        if decodeFrame s.cfg raw = .framingError sub raw then
          .next { s with resp := s.resp ++ [.record (.framingError sub raw)] }
        else .refused .outcomeNotTaken

/-! ## `DECODE` and `ENCACK` (`42_codec.md`) -/

/-- R132 to R136: exactly when `DECODE` returns each sub-kind of `FRAMING_ERROR`, always with `raw = F`. -/
def Obligations.FramingErrorCauses : Prop :=
  ∀ (p : Params) (F : List Byte),
    (decodeFrame p F = .framingError .truncated F ↔
      F.length < 2 ∨ ∃ v : Variant, F.take 2 = v.mark ∧ F.length < 2 + v.lfs) ∧
    (decodeFrame p F = .framingError .badStart F ↔
      2 ≤ F.length ∧ F.take 2 ≠ [0x78, 0x78] ∧ F.take 2 ≠ [0x79, 0x79]) ∧
    (decodeFrame p F = .framingError .lengthMismatch F ↔
      ∃ (v : Variant) (n : Nat), F.take 2 = v.mark ∧ lengthOf v F = some n ∧
        F.length ≠ 2 + v.lfs + n + 2) ∧
    (decodeFrame p F = .framingError .badStop F ↔
      ∃ (v : Variant) (n : Nat), F.take 2 = v.mark ∧ lengthOf v F = some n ∧
        F.length = 2 + v.lfs + n + 2 ∧ F.drop (F.length - 2) ≠ [0x0D, 0x0A]) ∧
    (decodeFrame p F = .framingError .lengthTooShort F ↔
      ∃ (v : Variant) (n : Nat), F.take 2 = v.mark ∧ lengthOf v F = some n ∧
        F.length = 2 + v.lfs + n + 2 ∧ F.drop (F.length - 2) = [0x0D, 0x0A] ∧ n < 5)

/-- R137, R138, R70: a frame whose framing is right gives `FRAME_OK` with every field in its place
if the checksum field holds `CRC16` of the range, and otherwise `CHECKSUM_ERROR` with both values. -/
def Obligations.DecodeOfWellFormedFrame : Prop :=
  ∀ (p : Params) (v : Variant) (proto : Byte) (payload : List Byte) (sn ck : Word16),
    payload.length + 5 ≤ v.maxLength →
      decodeFrame p (frameBytes v (.fields proto payload sn ck) 0x0D 0x0A) =
        if ck = crc16 p (rangeBytes p.crcRange v proto payload sn) then
          .frameOk { variant := v, length := BitVec.ofNat 16 (payload.length + 5),
                     protocolNumber := proto, payload := payload, serialNumber := sn,
                     checksum := ck,
                     raw := frameBytes v (.fields proto payload sn ck) 0x0D 0x0A }
        else .checksumError (frameBytes v (.fields proto payload sn ck) 0x0D 0x0A) ck
          (crc16 p (rangeBytes p.crcRange v proto payload sn))

/-- R79, R137: what the builders `STD` and `EXT` build decodes to its fields. -/
def Obligations.BuiltFramesDecode : Prop :=
  ∀ (p : Params) (v : Variant) (proto : Byte) (payload : List Byte) (sn : Word16),
    payload.length + 5 ≤ v.maxLength →
      decodeFrame p (buildFrame p v proto payload sn) =
        .frameOk { variant := v, length := BitVec.ofNat 16 (payload.length + 5),
                   protocolNumber := proto, payload := payload, serialNumber := sn,
                   checksum := crc16 p (rangeBytes p.crcRange v proto payload sn),
                   raw := buildFrame p v proto payload sn }

/-- R139: `DECODE` returns a record that carries the bytes it was given, and never an anomaly. -/
def Obligations.DecodeReturnsItsBytes : Prop :=
  ∀ (p : Params) (F : List Byte),
    (∃ f, decodeFrame p F = .frameOk f ∧ f.raw = F ∧ f.wf = true) ∨
      (∃ received computed, decodeFrame p F = .checksumError F received computed ∧ received ≠ computed) ∨
      ∃ sub, decodeFrame p F = .framingError sub F

/-- R119, R140: a slice of the reassembler gives `FRAME_OK`, `CHECKSUM_ERROR` or `LENGTH_TOO_SHORT`. -/
def Obligations.SliceDecodesToThreeKinds : Prop :=
  ∀ (p : Params) (F : List Byte), IsSlice F →
    (∃ f, decodeFrame p F = .frameOk f) ∨
      (∃ received computed, decodeFrame p F = .checksumError F received computed) ∨
      decodeFrame p F = .framingError .lengthTooShort F

/-- R146: one changed byte is always detected, and its position decides the result. -/
def Obligations.SingleByteCorruptionIsDetected : Prop :=
  ∀ (p : Params) (F : List Byte) (f : FrameFields) (i : Nat) (a b : Byte),
    p.crcPoly.getLsbD 0 = true → decodeFrame p F = .frameOk f → F[i]? = some a → a ≠ b →
      let n := f.length.toNat
      let q := f.variant.protoOffset
      if i < 2 then decodeFrame p (F.set i b) = .framingError .badStart (F.set i b)
      else if i < q then decodeFrame p (F.set i b) = .framingError .lengthMismatch (F.set i b)
      else if i < q + n - 2 then
        ∃ computed, computed ≠ f.checksum ∧
          decodeFrame p (F.set i b) = .checksumError (F.set i b) f.checksum computed
      else if i < q + n then
        ∃ received, received ≠ f.checksum ∧
          decodeFrame p (F.set i b) = .checksumError (F.set i b) received f.checksum
      else decodeFrame p (F.set i b) = .framingError .badStop (F.set i b)

/-- R142: `ENCACK` completes in every state, whatever `rst` is, changes no context, and answers the
ten bytes, which are `STD(p, [], s)`, on `AQ`; where no other response stands there the `ACK` of these
bytes is then the transfer of the answer. The responses on the channel and the list of answers are the
model's (assumptions 5 and 23). -/
def Obligations.EncackAnswersTheAckFrame : Prop :=
  ∀ (s : State) (p : Byte) (sn : Word16),
    let c := crc16 s.cfg (match s.cfg.crcRange with
      | .fromLength => [0x05, p, hi8 sn, lo8 sn]
      | .fromProtocol => [p, hi8 sn, lo8 sn])
    let frame : List Byte := [0x78, 0x78, 0x05, p, hi8 sn, lo8 sn, hi8 c, lo8 c, 0x0D, 0x0A]
    exec (.encack p sn) s = .next { s with aq := s.aq ++ [frame] } ∧
      buildFrame s.cfg .std p [] sn = frame ∧
      (s.aq = [] → execAll [.encack p sn, .ack p sn c] s =
        .next { s with resp := s.resp ++ [.ack frame] })

/-- R77, R145: an `AQ` response row completes, whatever `rst` is, where its ten bytes stand first on
`AQ`, transfers them, and is refused everywhere else: the block sends nothing by itself. Its 80-bit word
carries the ten bytes, the first in bits 79..72. That the responses wait on the channel in the order of
the requests is the model's choice (assumption 23). -/
def Obligations.AckStandsOnTheChannel : Prop :=
  ∀ (s : State) (p : Byte) (sn c : Word16),
    let frame : List Byte := [0x78, 0x78, 0x05, p, hi8 sn, lo8 sn, hi8 c, lo8 c, 0x0D, 0x0A]
    (∀ rest, s.aq = frame :: rest →
      exec (.ack p sn c) s = .next { s with aq := rest, resp := s.resp ++ [.ack frame] }) ∧
      (s.aq.head? ≠ some frame → exec (.ack p sn c) s = .refused .responseNotOwed) ∧
      (List.range 10).map (fun i => (responseWord p sn c).extractLsb' (72 - 8 * i) 8) = frame

/-- R143: the round trip of the acknowledgment, through `DECODE` and through a context at reset. -/
def Obligations.AckRoundTrip : Prop :=
  ∀ (p : Params) (proto : Byte) (sn : Word16),
    let ok : Record := .frameOk {
      variant := .std, length := 5, protocolNumber := proto, payload := [], serialNumber := sn,
      checksum := crc16 p (rangeBytes p.crcRange .std proto [] sn), raw := encAck p proto sn }
    decodeFrame p (encAck p proto sn) = ok ∧
      ∀ s : State, s.cfg = p → p.Legal → s.Serves Ctx.reset →
        exec (.feed (encAck p proto sn)) s = .next (s.setCtx { buf := [], desync := false, out := [ok] })

/-- R144: with the default CRC, an acknowledgment built with one `CRC_RANGE` fails under the other. -/
def Obligations.AckFailsUnderTheOtherRange : Prop :=
  ∀ (built read : Params) (proto : Byte) (sn : Word16), built.crcRange ≠ read.crcRange →
    { built with crcRange := .fromLength } = Params.default →
    { read with crcRange := .fromLength } = Params.default →
      ∃ received computed, decodeFrame read (encAck built proto sn) =
        .checksumError (encAck built proto sn) received computed

/-- R130, R160: the pure functions complete in every state: the value goes to the caller, and the
state of the block is unchanged. The list of answers is the model's (assumption 5). -/
def Obligations.PureFunctionsAnswer : Prop :=
  ∀ s : State,
    (∀ F, exec (.decode F) s = .next { s with resp := s.resp ++ [.record (decodeFrame s.cfg F)] }) ∧
    (∀ bytes, exec (.crc16 bytes) s = .next { s with resp := s.resp ++ [.word (crc16 s.cfg bytes)] }) ∧
    (∀ c b, exec (.crcUpdate c b) s = .next { s with resp := s.resp ++ [.word (crcUpdate s.cfg c b)] }) ∧
    ∀ bytes expected, exec (.verify bytes expected) s =
      .next { s with resp := s.resp ++ [.truth (decide (crc16 s.cfg bytes = expected))] }

/-! ## The checksum (`43_checksum.md`) -/

/-- R168: for every legal polynomial, changing one byte changes the checksum. -/
def Obligations.ChecksumIsSensitiveToEveryByte : Prop :=
  ∀ (p : Params) (m : List Byte) (i : Nat) (a e : Byte), p.crcPoly.getLsbD 0 = true →
    m[i]? = some a → e ≠ 0 →
      crc16 p (m.set i (a ^^^ e)) ≠ crc16 p m ∧ verify p (m.set i (a ^^^ e)) (crc16 p m) = false

/-- R163: the form without reflection computes the default `CRC16`, and its register is the
bit-reversal of the general form's at every point: after each byte, and after each of the eight
shifts within the next one. -/
def Obligations.ReflectedFormComputesTheDefault : Prop :=
  ∀ bytes : List Byte,
    crc16Reflected bytes = crc16 Params.default bytes ∧
      bytes.foldl crcUpdateReflected 0xFFFF = (crcFold Params.default 0xFFFF bytes).reverse ∧
      ∀ (b : Byte) (k : Nat), k ≤ 8 →
        repeatTimes crcShiftRight k (bytes.foldl crcUpdateReflected 0xFFFF ^^^ b.setWidth 16) =
          (repeatTimes (crcShift 0x1021) k
            (crcFold Params.default 0xFFFF bytes ^^^ (b.reverse.setWidth 16 <<< 8))).reverse

/-- R165: one byte absorbed by table is one byte absorbed by eight shifts. -/
def Obligations.TableAbsorbsAByte : Prop :=
  ∀ (r : Word16) (b : Byte), crcUpdateByTable r b = crcUpdateReflected r b

/-- R170, R25: the CRC register follows the bytes as they arrive: it is `CRC_INIT` before the first
byte behind the marker; a byte of the length field updates it if the range counts that field; a later
byte of the range updates it, and any other leaves it. From the complete length field on it is the
view `CRC_ACC`, and before that R25 gives no view (assumption 22). For a `length` below 5, where R72
gives no range, what the register does is the model's choice (assumption 21). -/
def Obligations.CrcAccFollowsTheBytes : Prop :=
  ∀ (p : Params) (buf : List Byte),
    (buf.length ≤ 2 → crcRegister p buf = p.crcInit) ∧
    (lenOf buf = none → crcAccOf p buf = none) ∧
    ∀ (d : Byte) (v : Variant), varOf buf = some v →
      (lengthOf v buf = none → (∀ n, lengthOf v (buf ++ [d]) = some n → 2 ≤ n) →
        crcRegister p (buf ++ [d]) = match p.crcRange with
          | .fromLength => crcUpdate p (crcRegister p buf) d
          | .fromProtocol => crcRegister p buf) ∧
      ∀ n, lengthOf v buf = some n →
        crcAccOf p buf = some (crcRegister p buf) ∧
          crcAccOf p (buf ++ [d]) = some
            (if buf.length < 2 + v.lfs + n - 2 then crcUpdate p (crcRegister p buf) d
              else crcRegister p buf)

/-- R169: `VERIFY` is no constant, under any parameters. -/
def Obligations.VerifyIsNotConstant : Prop :=
  ∀ (p : Params) (bytes : List Byte), ∃ good bad : Word16,
    verify p bytes good = true ∧ verify p bytes bad = false

/-! ## The whole machine -/

/-- R24, R197, R200: every step keeps the invariant. -/
def Obligations.StepKeepsTheInvariant : Prop :=
  ∀ s t : State, s.Inv → step s = .next t → t.Inv

/-- R33: both invariants hold right after reset, under any configuration, and the machine's own reset
state is the one of the default configuration. -/
def Obligations.ResetMeetsTheInvariant : Prop :=
  (∀ p : Params, (State.resetWith p).Inv ∧ (State.resetWith p).TraceInv) ∧
    State.reset = State.resetWith Params.default

/-- R182, R140, R142, R50: every step keeps the traces to the records that the block can produce, and
the acknowledgments to those that `ENCACK` answers; and in a state that a beat can leave behind no instruction but a beat or `RST` touches a context, so what the
traces hold comes from the beats and from nothing else. -/
def Obligations.StepKeepsTheTraces : Prop :=
  (∀ s t : State, s.TraceInv → step s = .next t → t.TraceInv) ∧
    ∀ (i : Instr) (s t : State), s.Inv → (encode i).isBeat = false → i ≠ .rst → exec i s = .next t →
      t.ctxs = s.ctxs

/-- R28, R210: no step changes the configuration. -/
def Obligations.StepKeepsTheConfiguration : Prop :=
  ∀ s t : State, step s = .next t → t.cfg = s.cfg

/-- The frame of every instruction. `RST`, whatever the pin was, raises it, leaves every context at its
reset values and changes nothing else (R101, R200). Every other instruction leaves the configuration,
the pin, the channel, the offers and the number of contexts; only the stateless rows return a value
or touch `AQ`, and they touch no context (R77, R130, R160); no row but `ENCACK` adds an acknowledgment to
those sent (R145). While `rst` is 1 the others hold the contexts at their
reset values. While it is 0 they touch only the context the channel serves (R190, R51): bytes are
appended to its buffer only as the row delivers them and leave it only at the head (R22), and the
four waits leave the context alone. Pin, channel, offers, answers and the responses on
`AQ` are the model's fields (assumptions 3, 4, 5 and 23). -/
def Obligations.EveryInstructionsFrame : Prop :=
  (∀ s : State, exec .rst s = .next { s with rst := true, ctxs := s.ctxs.map fun _ => Ctx.reset }) ∧
    ∀ (i : Instr) (s t : State), i ≠ .rst → exec i s = .next t →
      t.cfg = s.cfg ∧ t.rst = s.rst ∧ t.cur = s.cur ∧ t.pend = s.pend ∧
      t.ctxs.length = s.ctxs.length ∧ s.resp <+: t.resp ∧
      ((∀ p sn, i ≠ .encack p sn) → t.acks = s.acks) ∧
      (isStateless i = true → t.ctxs = s.ctxs) ∧
      (isStateless i = false → t.resp = s.resp ∧ t.aq = s.aq ∧
        (s.rst = true → t.ctxs = s.ctxs.map fun _ => Ctx.reset) ∧
        (s.rst = false → (∀ k, k ≠ s.cur → t.ctxs[k]? = s.ctxs[k]?) ∧
          ∀ c c' : Ctx, s.ctxs[s.cur]? = some c → t.ctxs[s.cur]? = some c' →
            c'.buf <:+ c.buf ++ deliveredBytes i ∧ (i ∈ waitRows → c' = c)))

/-- R27, R102: no instruction but `RST` takes a record back: every trace only grows. -/
def Obligations.TracesOnlyGrow : Prop :=
  ∀ (i : Instr) (s t : State), s.rst = false → i ≠ .rst → exec i s = .next t →
    ∀ (k : Nat) (c : Ctx), s.ctxs[k]? = some c → ∃ c', t.ctxs[k]? = some c' ∧ c.out <+: c'.out

/-- R23: inside an episode `desync` goes back to 0 only by `CLR`, by `RST`, or by the emission of a
slice. -/
def Obligations.EpisodeEndsOnlyBySlice : Prop :=
  ∀ (i : Instr) (s t : State) (c c' : Ctx), s.Serves c → c.desync = true → exec i s = .next t →
    t.ctxs[s.cur]? = some c' → c'.desync = false →
      i = .rst ∨ (∃ x, i = .clr x) ∨
        ∃ F, IsSlice F ∧ decodeFrame s.cfg F ∈ c'.out.drop c.out.length

/-- R23: `desync` has no effect on which bytes are discarded or which frames are emitted; two
contexts that differ in it alone differ at most in `GARBAGE` records. -/
def Obligations.DesyncOnlyMutesGarbage : Prop :=
  ∀ (p : Params) (bytes buf : List Byte) (d1 d2 : Bool) (o1 o2 : List Record) (c1 : Ctx),
    feed p bytes ⟨buf, d1, o1⟩ = some c1 →
      ∃ c2 r1 r2, feed p bytes ⟨buf, d2, o2⟩ = some c2 ∧ c2.buf = c1.buf ∧
        c1.out = o1 ++ r1 ∧ c2.out = o2 ++ r2 ∧
        r1.filter (· ≠ .anomaly .garbage) = r2.filter (· ≠ .anomaly .garbage)

/-- R51: operations on two different contexts commute: either order gives the same contexts. The
channel is the model's field (assumption 4), and is set as in the first order. -/
def Obligations.DifferentContextsCommute : Prop :=
  ∀ (s t1 t2 : State) (j k : Nat) (a b : Instr), j ≠ k → s.rst = false →
    actsOnContext a = true → actsOnContext b = true →
      exec a { s with cur := j } = .next t1 → exec b { t1 with cur := k } = .next t2 →
        ∃ u1 u2, exec b { s with cur := k } = .next u1 ∧ exec a { u1 with cur := j } = .next u2 ∧
          { u2 with cur := k } = t2
end

