-- ==== Sys2Proof/Laws/Checksum.lean ====
section
/-! SUPPORT. The Checksum Engine: how the register takes bytes one after the other, and what
`VERIFY` answers. -/

namespace Sys2Proof.Machine

/-- The register absorbs a sequence in parts (R164, R170). -/
theorem crcFold_append (p : Params) (r : Word16) (a b : List Byte) :
    crcFold p r (a ++ b) = crcFold p (crcFold p r a) b := by
  simp [crcFold]

@[simp] theorem crcFold_nil (p : Params) (r : Word16) : crcFold p r [] = r := rfl

@[simp] theorem crcFold_cons (p : Params) (r : Word16) (b : Byte) (bs : List Byte) :
    crcFold p r (b :: bs) = crcFold p (crcUpdate p r b) bs := rfl

/-- `VERIFY` is equality with `CRC16`, in all 16 bits (R166). -/
theorem verify_iff (p : Params) (bytes : List Byte) (expected : Word16) :
    verify p bytes expected = true ↔ crc16 p bytes = expected := by
  simp [verify]

/-- Output reflection and final xor lose nothing of the register (R162). -/
theorem crcFinish_injective (p : Params) : Function.Injective (crcFinish p) := by
  intro a b h
  have h' : (if p.crcRefout then a.reverse else a) = if p.crcRefout then b.reverse else b := by
    simpa [crcFinish] using h
  split at h'
  · simpa using congrArg BitVec.reverse h'
  · exact h'

/-- Repeating an injective function loses nothing. -/
theorem repeatTimes_injective {α : Type} {f : α → α} (hf : Function.Injective f) (n : Nat) :
    Function.Injective (repeatTimes f n) := by
  induction n with
  | zero => exact fun _ _ h => h
  | succ n ih => exact fun _ _ h => hf (ih h)

end Sys2Proof.Machine
end

