-- ==== Sys2Proof/Laws/State.lean ====
section
/-! SUPPORT. One lemma for each field under each update, true by `rfl`, so that no later proof
unfolds a record update. -/

namespace Sys2Proof.Machine

variable (c : Ctx) (s : State)

/-! ## Contexts -/

@[simp] theorem reset_buf : Ctx.reset.buf = [] := rfl
@[simp] theorem reset_desync : Ctx.reset.desync = false := rfl
@[simp] theorem reset_out : Ctx.reset.out = [] := rfl

@[simp] theorem memAppend_buf (v : List Byte) : (c.memAppend v).buf = c.buf ++ v := rfl
@[simp] theorem memAppend_desync (v : List Byte) : (c.memAppend v).desync = c.desync := rfl
@[simp] theorem memAppend_out (v : List Byte) : (c.memAppend v).out = c.out := rfl

@[simp] theorem bufDrop_buf (n : Nat) : (c.bufDrop n).buf = c.buf.drop n := rfl
@[simp] theorem bufDrop_desync (n : Nat) : (c.bufDrop n).desync = c.desync := rfl
@[simp] theorem bufDrop_out (n : Nat) : (c.bufDrop n).out = c.out := rfl

@[simp] theorem bufClear_buf : c.bufClear.buf = [] := rfl
@[simp] theorem bufClear_desync : c.bufClear.desync = c.desync := rfl
@[simp] theorem bufClear_out : c.bufClear.out = c.out := rfl

@[simp] theorem emit_buf (r : Record) : (c.emit r).buf = c.buf := rfl
@[simp] theorem emit_desync (r : Record) : (c.emit r).desync = c.desync := rfl
@[simp] theorem emit_out (r : Record) : (c.emit r).out = c.out ++ [r] := rfl

@[simp] theorem enterDesync_buf : c.enterDesync.buf = c.buf := rfl
@[simp] theorem enterDesync_desync : c.enterDesync.desync = true := rfl
@[simp] theorem enterDesync_out : c.enterDesync.out = c.out := rfl

@[simp] theorem leaveDesync_buf : c.leaveDesync.buf = c.buf := rfl
@[simp] theorem leaveDesync_desync : c.leaveDesync.desync = false := rfl
@[simp] theorem leaveDesync_out : c.leaveDesync.out = c.out := rfl

@[simp] theorem memRead_zero (n : Nat) : c.memRead 0 n = c.buf.take n := by
  simp [Ctx.memRead, slice]

/-- Two contexts with the same three components are equal. -/
theorem ctx_eq {a b : Ctx} (hb : a.buf = b.buf) (hd : a.desync = b.desync) (ho : a.out = b.out) :
    a = b := by
  cases a; cases b; simp_all

/-! ## The block -/

@[simp] theorem holdReset_cfg : s.holdReset.cfg = s.cfg := rfl
@[simp] theorem holdReset_rst : s.holdReset.rst = s.rst := rfl
@[simp] theorem holdReset_cur : s.holdReset.cur = s.cur := rfl
@[simp] theorem holdReset_pend : s.holdReset.pend = s.pend := rfl
@[simp] theorem holdReset_aq : s.holdReset.aq = s.aq := rfl
@[simp] theorem holdReset_resp : s.holdReset.resp = s.resp := rfl
@[simp] theorem holdReset_ctxs : s.holdReset.ctxs = s.ctxs.map fun _ => Ctx.reset := rfl

@[simp] theorem raiseRst_cfg : s.raiseRst.cfg = s.cfg := rfl
@[simp] theorem raiseRst_rst : s.raiseRst.rst = true := rfl
@[simp] theorem raiseRst_cur : s.raiseRst.cur = s.cur := rfl
@[simp] theorem raiseRst_pend : s.raiseRst.pend = s.pend := rfl
@[simp] theorem raiseRst_aq : s.raiseRst.aq = s.aq := rfl
@[simp] theorem raiseRst_resp : s.raiseRst.resp = s.resp := rfl
@[simp] theorem raiseRst_ctxs : s.raiseRst.ctxs = s.ctxs.map fun _ => Ctx.reset := rfl

@[simp] theorem releaseRst_cfg : s.releaseRst.cfg = s.cfg := rfl
@[simp] theorem releaseRst_rst : s.releaseRst.rst = false := rfl
@[simp] theorem releaseRst_cur : s.releaseRst.cur = s.cur := rfl
@[simp] theorem releaseRst_pend : s.releaseRst.pend = s.pend := rfl
@[simp] theorem releaseRst_aq : s.releaseRst.aq = s.aq := rfl
@[simp] theorem releaseRst_resp : s.releaseRst.resp = s.resp := rfl
@[simp] theorem releaseRst_ctxs : s.releaseRst.ctxs = s.ctxs := rfl

@[simp] theorem setCtx_cfg : (s.setCtx c).cfg = s.cfg := rfl
@[simp] theorem setCtx_rst : (s.setCtx c).rst = s.rst := rfl
@[simp] theorem setCtx_cur : (s.setCtx c).cur = s.cur := rfl
@[simp] theorem setCtx_pend : (s.setCtx c).pend = s.pend := rfl
@[simp] theorem setCtx_aq : (s.setCtx c).aq = s.aq := rfl
@[simp] theorem setCtx_resp : (s.setCtx c).resp = s.resp := rfl
@[simp] theorem setCtx_ctxs : (s.setCtx c).ctxs = s.ctxs.set s.cur c := rfl

@[simp] theorem idle_cfg : s.idle.cfg = s.cfg := by unfold State.idle; split <;> rfl
@[simp] theorem idle_rst : s.idle.rst = s.rst := by unfold State.idle; split <;> rfl
@[simp] theorem idle_cur : s.idle.cur = s.cur := by unfold State.idle; split <;> rfl
@[simp] theorem idle_pend : s.idle.pend = s.pend := by unfold State.idle; split <;> rfl
@[simp] theorem idle_aq : s.idle.aq = s.aq := by unfold State.idle; split <;> rfl
@[simp] theorem idle_resp : s.idle.resp = s.resp := by unfold State.idle; split <;> rfl

end Sys2Proof.Machine
end

