-- ==== Sys2Proof/Laws/Ops.lean ====
section
/-! SUPPORT. What the shared operations can do, each said once: the operations on the current
context, the answer of a stateless operation, the environment's queue, and the memory form. -/

namespace Sys2Proof.Machine

variable {s t : State} {f : Ctx → CtxResult}

/-! ## Operations on the current context -/

/-- Everything an operation on the current context can do, when it answers a next state: hold the
reset, or change that one context. -/
theorem onCtx_next (h : s.onCtx f = .next t) :
    (s.rst = true ∧ t = s.holdReset) ∨
      ∃ c c', s.rst = false ∧ s.ctxs[s.cur]? = some c ∧ f c = .next c' ∧ t = s.setCtx c' := by
  unfold State.onCtx at h
  split at h
  · next hr => exact .inl ⟨hr, by simpa using h.symm⟩
  · next hr =>
    split at h
    · cases h
    · next c hc =>
      cases hf : f c with
      | next c' =>
        rw [hf] at h
        exact .inr ⟨c, c', by simpa using hr, hc, hf, by simpa [State.liftCtx] using h.symm⟩
      | fault r => rw [hf] at h; cases h
      | refused r => rw [hf] at h; cases h

/-- On a served context the operation's outcome is the block's. -/
theorem onCtx_served {c : Ctx} (hr : s.rst = false) (hc : s.ctxs[s.cur]? = some c) :
    s.onCtx f = s.liftCtx (f c) := by
  simp [State.onCtx, hr, hc]

/-- While `rst` is 1 the contexts are held and nothing else happens (R200). -/
theorem onCtx_held (hr : s.rst = true) : s.onCtx f = .next s.holdReset := by
  simp [State.onCtx, hr]

/-- An operation that always succeeds completes on a served context. -/
theorem updateCtx_served {c : Ctx} {g : Ctx → Ctx} (hr : s.rst = false)
    (hc : s.ctxs[s.cur]? = some c) : s.updateCtx g = .next (s.setCtx (g c)) := by
  simp [State.updateCtx, onCtx_served hr hc, State.liftCtx]

/-- What an operation on the current context leaves alone, whatever it does. -/
theorem onCtx_frame (h : s.onCtx f = .next t) :
    t.cfg = s.cfg ∧ t.rst = s.rst ∧ t.cur = s.cur ∧ t.pend = s.pend ∧ t.aq = s.aq ∧ t.resp = s.resp ∧
      t.ctxs.length = s.ctxs.length := by
  obtain ⟨-, rfl⟩ | ⟨c, c', -, -, -, rfl⟩ := onCtx_next h <;> simp

/-- The contexts that the current channel does not serve are not touched (R51, R190). -/
theorem onCtx_others (h : s.onCtx f = .next t) (hr : s.rst = false) {k : Nat} (hk : k ≠ s.cur) :
    t.ctxs[k]? = s.ctxs[k]? := by
  obtain ⟨hr', -⟩ | ⟨c, c', -, -, -, rfl⟩ := onCtx_next h
  · simp [hr] at hr'
  · simp [Ne.symm hk]

/-- The served context after an operation is what the operation made of it. -/
theorem setCtx_served {c c' : Ctx} (hc : s.ctxs[s.cur]? = some c) :
    (s.setCtx c').ctxs[s.cur]? = some c' := by
  have hlt : s.cur < s.ctxs.length := (List.getElem?_eq_some_iff.mp hc).1
  simp [hlt]

/-! ## Stateless operations -/

/-- A stateless operation always completes and adds its value to the responses; nothing of the
block changes. -/
theorem respond_next (s : State) (v : Response) :
    s.respond v = .next { s with resp := s.resp ++ [v] } := rfl

/-! ## The acknowledgment channel -/

/-- A response that stands first on `AQ` is transferred (R77). -/
theorem takeFromAq_head {frame : List Byte} {rest : List (List Byte)} (h : s.aq = frame :: rest) :
    s.takeFromAq frame = .next { s with aq := rest, resp := s.resp ++ [.ack frame] } := by
  simp [State.takeFromAq, h]

/-- Bytes that do not stand first on `AQ` are not sent (R145). -/
theorem takeFromAq_other {frame : List Byte} (h : s.aq.head? ≠ some frame) :
    s.takeFromAq frame = .refused .responseNotOwed := by
  unfold State.takeFromAq
  split
  · rfl
  · next f rest hq => rw [if_neg (by simpa [hq] using h)]

/-- Everything a transfer on `AQ` can do when it answers a next state. -/
theorem takeFromAq_next {frame : List Byte} (h : s.takeFromAq frame = .next t) :
    ∃ rest, s.aq = frame :: rest ∧ t = { s with aq := rest, resp := s.resp ++ [.ack frame] } := by
  by_cases hq : s.aq.head? = some frame
  · obtain ⟨rest, hr⟩ := List.head?_eq_some_iff.mp hq
    rw [takeFromAq_head hr] at h
    exact ⟨rest, hr, by simpa using h.symm⟩
  · rw [takeFromAq_other hq] at h
    cases h

/-! ## What the environment offers -/

/-- Everything that accepting an offer can do: the offers before the accepted one are beats that
`rst` holds back, and they stay in their order. -/
theorem acceptFrom_some {rst : Bool} {pend rest : List Offer} {o : Offer}
    (h : acceptFrom rst pend = some (o, rest)) :
    ∃ held later, pend = held ++ o :: later ∧ rest = held ++ later ∧
      (∀ x ∈ held, rst = true ∧ x.xfer.isBeat = true) ∧ (rst && o.xfer.isBeat) = false := by
  induction pend generalizing rest with
  | nil => simp [acceptFrom] at h
  | cons a pend ih =>
    rw [acceptFrom] at h
    split at h
    · next hb =>
      cases hrec : acceptFrom rst pend with
      | none => simp [hrec] at h
      | some q =>
        obtain ⟨o', rest'⟩ := q
        rw [hrec] at h
        simp only [Option.some.injEq, Prod.mk.injEq] at h
        obtain ⟨rfl, rfl⟩ := h
        obtain ⟨held, later, rfl, rfl, hh, ho⟩ := ih hrec
        refine ⟨a :: held, later, rfl, rfl, ?_, ho⟩
        intro x hx
        rcases List.mem_cons.mp hx with rfl | hx
        · simpa using hb
        · exact hh x hx
    · next hb =>
      simp only [Option.some.injEq, Prod.mk.injEq] at h
      obtain ⟨rfl, rfl⟩ := h
      exact ⟨[], pend, rfl, rfl, by simp, by simpa using hb⟩

/-- With `rst` at 0 the first offer is accepted. -/
theorem acceptFrom_running (o : Offer) (rest : List Offer) :
    acceptFrom false (o :: rest) = some (o, rest) := by
  simp [acceptFrom]

/-- An offer that is not held back is accepted when it stands first. -/
theorem acceptFrom_head {rst : Bool} {o : Offer} (ho : (rst && o.xfer.isBeat) = false)
    (rest : List Offer) : acceptFrom rst (o :: rest) = some (o, rest) := by
  simp [acceptFrom, ho]

/-- What taking an offer does to the state: the channel and the queue, and nothing else. -/
theorem takeOffer_some {x : Xfer} (h : s.takeOffer = some (x, t)) :
    ∃ o rest, acceptFrom s.rst s.pend = some (o, rest) ∧ x = o.xfer ∧
      t = { s with cur := o.ch, pend := rest } := by
  unfold State.takeOffer at h
  split at h
  · cases h
  · next o rest ha => simp_all

/-! ## The memory -/

/-- The cells of a buffer lie at the offsets 0, 1, 2, ..., strictly rising and without a gap (R40). -/
theorem cells_offsets (buf : List Byte) : (Memory.cells buf).map Prod.fst = List.range buf.length := by
  simp only [Memory.cells, List.map_map, Function.comp_def, List.range_eq_range']
  exact List.zipIdx_map_snd 0 buf

/-- The cells determine the buffer: equal memories are equal data. -/
theorem cells_injective {a b : List Byte} (h : Memory.cells a = Memory.cells b) : a = b := by
  have key : ∀ l : List Byte, (Memory.cells l).map Prod.snd = l := by
    intro l
    simp only [Memory.cells, List.map_map, Function.comp_def]
    exact List.zipIdx_map_fst 0 l
  rw [← key a, ← key b, h]

/-- The reset memory has the form of R21. -/
theorem reset_memory_wf (cap : Nat) : Memory.wf cap Ctx.reset.buf = true := by
  simp [Memory.wf]

/-- Appending one byte under the precondition of `PUSH` keeps the form of R21 (R103). -/
theorem memAppend_wf {cap : Nat} {c : Ctx} (h : c.buf.length < cap) (d : Byte) :
    Memory.wf cap (c.memAppend [d]).buf = true := by
  simpa [Memory.wf] using h

/-- Emptying the buffer gives the form of R21. -/
theorem bufClear_wf (cap : Nat) (c : Ctx) : Memory.wf cap c.bufClear.buf = true := by
  simp [Memory.wf]

/-- Removing a prefix keeps the form of R21. -/
theorem bufDrop_wf {cap : Nat} {c : Ctx} (h : Memory.wf cap c.buf = true) (n : Nat) :
    Memory.wf cap (c.bufDrop n).buf = true := by
  simp only [Memory.wf, bufDrop_buf, List.length_drop, decide_eq_true_eq] at *
  omega

end Sys2Proof.Machine
end

