-- ==== Sys2Proof/Laws/Scan.lean ====
section
/-! SUPPORT. The scan: what each outcome says of the buffer, how the loop unrolls, and that it ends
in a wait. -/

namespace Sys2Proof.Machine

/-- Every frame takes at least 5 bytes (R115). -/
theorem total_pos (v : Variant) (n : Nat) : 5 ≤ v.total n := by
  cases v <;> simp only [Variant.total, Variant.lfs, Config.lfsStd, Config.lfsExt] <;> omega

/-- A sequence with a head of any other kind than `empty` is not empty. -/
theorem headOf_nil : headOf [] = .empty := rfl

/-- Everything `SCAN_STEP` can do to the buffer, said once: nothing, one byte (R109), or the whole
presumed frame (R113, R114), which is then in the buffer. -/
theorem scanOutcome_cases (buf : List Byte) :
    (scanOutcome buf).isWait = true ∨ (scanOutcome buf = .skip ∧ 1 ≤ buf.length) ∨
      ∃ v n, headOf buf = .frame v n ∧ v.total n ≤ buf.length ∧
        ((scanOutcome buf = .emit (v.total n) ∧ stopTest buf (v.total n) = true) ∨
          (scanOutcome buf = .drop (v.total n) ∧ stopTest buf (v.total n) = false)) := by
  unfold scanOutcome
  cases hh : headOf buf with
  | empty => simp [ScanOutcome.isWait]
  | half => simp [ScanOutcome.isWait]
  | noLength => simp [ScanOutcome.isWait]
  | noMark =>
    cases buf with
    | nil => simp [headOf] at hh
    | cons b bs => simp
  | frame v n =>
    by_cases hl : buf.length < v.total n
    · simp [hl, ScanOutcome.isWait]
    · refine .inr (.inr ⟨v, n, rfl, by omega, ?_⟩)
      cases hs : stopTest buf (v.total n) <;> simp [hl, hs]

/-- A wait changes nothing (R107, R108, R110, R111). -/
theorem scanStep_wait {p : Params} {c : Ctx} (h : (scanOutcome c.buf).isWait = true) :
    scanStep p c = c := by
  unfold scanStep applyOutcome
  cases ho : scanOutcome c.buf <;> simp_all [ScanOutcome.isWait]

/-- Every other outcome makes the buffer shorter (R115). -/
theorem scanStep_shortens {p : Params} {c : Ctx} (h : (scanOutcome c.buf).isWait = false) :
    (scanStep p c).buf.length < c.buf.length := by
  obtain hw | ⟨ho, hl⟩ | ⟨v, n, -, hl, ⟨ho, -⟩ | ⟨ho, -⟩⟩ := scanOutcome_cases c.buf
  · simp [h] at hw
  · simp only [scanStep, ho, applyOutcome, scanSkip]
    split <;> simp <;> omega
  · have := total_pos v n
    simp only [scanStep, ho, applyOutcome, scanEmit, emit_buf, leaveDesync_buf, bufDrop_buf, List.length_drop]
    omega
  · have := total_pos v n
    simp only [scanStep, ho, applyOutcome, scanDrop, emit_buf, enterDesync_buf, bufDrop_buf, List.length_drop]
    omega

/-- The loop's bound is never the reason it ends: a larger bound gives the same. -/
theorem scanLoop_bound {p : Params} {k : Nat} {c : Ctx} (h : c.buf.length ≤ k) :
    ∀ {j : Nat}, k ≤ j → scanLoop p k c = scanLoop p j c := by
  induction k generalizing c with
  | zero =>
    intro j _
    have hn : c.buf = [] := List.length_eq_zero_iff.mp (by omega)
    cases j with
    | zero => rfl
    | succ j => simp [scanLoop, scanOutcome, headOf, hn, ScanOutcome.isWait]
  | succ k ih =>
    intro j hj
    obtain ⟨j, rfl⟩ : ∃ i, j = i + 1 := ⟨j - 1, by omega⟩
    rw [scanLoop, scanLoop]
    split
    · rfl
    · next hw =>
      have := scanStep_shortens (p := p) (c := c) (by simpa using hw)
      exact ih (by omega) (by omega)

/-- How `SCAN` unrolls (R105): a wait ends it, and any other outcome is one step of it. -/
theorem scan_unroll (p : Params) (c : Ctx) :
    scan p c = if (scanOutcome c.buf).isWait then c else scan p (scanStep p c) := by
  conv_lhs => rw [scan, scanLoop_bound (le_refl _) (Nat.le_succ _), scanLoop]
  split
  · rfl
  · next hw =>
    have := scanStep_shortens (p := p) (c := c) (by simpa using hw)
    exact (scanLoop_bound (le_refl _) (by omega)).symm

/-- A buffer in which `SCAN_STEP` waits is left alone. -/
theorem scan_wait {p : Params} {c : Ctx} (h : (scanOutcome c.buf).isWait = true) : scan p c = c := by
  rw [scan_unroll, if_pos h]

/-- Any other outcome is one step, and the scan goes on. -/
theorem scan_go {p : Params} {c : Ctx} (h : (scanOutcome c.buf).isWait = false) :
    scan p c = scan p (scanStep p c) := by
  rw [scan_unroll]; simp [h]

/-- A scan never lengthens the buffer (R22). -/
theorem scanLoop_length_le (p : Params) (k : Nat) (c : Ctx) :
    (scanLoop p k c).buf.length ≤ c.buf.length := by
  induction k generalizing c with
  | zero => exact le_refl _
  | succ k ih =>
    rw [scanLoop]
    split
    · exact le_refl _
    · next hw =>
      exact le_trans (ih _) (Nat.le_of_lt (scanStep_shortens (by simpa using hw)))

/-- A scan keeps the form of R21. -/
theorem scan_wf {cap : Nat} {p : Params} {c : Ctx} (h : Memory.wf cap c.buf = true) :
    Memory.wf cap (scan p c).buf = true :=
  decide_eq_true (le_trans (scanLoop_length_le p c.buf.length c) (of_decide_eq_true h))

/-- Induction along the scan: a property that the waits have and that each step hands back holds. -/
theorem scan_induction {p : Params} {motive : Ctx → Prop}
    (wait : ∀ c, (scanOutcome c.buf).isWait = true → motive c)
    (go : ∀ c, (scanOutcome c.buf).isWait = false → motive (scanStep p c) → motive c) (c : Ctx) :
    motive c := by
  induction hn : c.buf.length using Nat.strong_induction_on generalizing c with
  | _ n ih =>
    cases hw : (scanOutcome c.buf).isWait with
    | true => exact wait c hw
    | false => exact go c hw (ih _ (hn ▸ scanStep_shortens hw) _ rfl)

/-! ## Shapes -/

/-- The first bytes decide the head, and more bytes after a complete header do not change it (R117). -/
theorem headOf_append {buf : List Byte} {v : Variant} {n : Nat} (h : headOf buf = .frame v n)
    (more : List Byte) : headOf (buf ++ more) = .frame v n := by
  match buf with
  | [] => simp [headOf] at h
  | [b] => simp only [headOf] at h; split at h <;> cases h
  | b0 :: b1 :: rest =>
    simp only [headOf, List.cons_append] at h ⊢
    cases hv : variantOf b0 b1 with
    | none => simp [hv] at h
    | some w =>
      simp only [hv] at h ⊢
      cases hl : lengthOf w (b0 :: b1 :: rest) with
      | none => simp [hl] at h
      | some m =>
        have : lengthOf w (b0 :: b1 :: (rest ++ more)) = some m := by
          cases w with
          | std => match rest with
            | [] => simp [lengthOf] at hl
            | _ :: _ => simpa [lengthOf] using hl
          | ext => match rest with
            | [] => simp [lengthOf] at hl
            | [_] => simp [lengthOf] at hl
            | _ :: _ :: _ => simpa [lengthOf] using hl
        simpa [hl, this] using h

/-- A head that is certainly no marker stays so (R117). -/
theorem headOf_append_noMark {buf : List Byte} (h : headOf buf = .noMark) (more : List Byte) :
    headOf (buf ++ more) = .noMark := by
  match buf with
  | [] => simp [headOf] at h
  | [b] =>
    have hb : isMarkByte b = false := by
      by_contra hb
      simp [headOf, hb] at h
    cases more with
    | nil => simpa using h
    | cons d ds =>
      have : variantOf b d = none := by
        simp only [isMarkByte, Bool.or_eq_false_iff] at hb
        simp [variantOf, hb]
      simp [headOf, this]
  | b0 :: b1 :: rest =>
    simp only [headOf, List.cons_append] at h ⊢
    cases hv : variantOf b0 b1 with
    | none => rfl
    | some v =>
      simp only [hv] at h
      split at h <;> cases h

/-- The two bytes of the stop test lie in the presumed frame (R117). -/
theorem stopTest_append {buf : List Byte} {total : Nat} (h0 : 2 ≤ total) (h : total ≤ buf.length)
    (more : List Byte) : stopTest (buf ++ more) total = stopTest buf total := by
  have h1 : total - 2 < buf.length := by omega
  have h2 : total - 1 < buf.length := by omega
  simp [stopTest, byteAt, List.getElem?_append, h1, h2]

/-- Prefix stability (R117): an outcome that is no wait is the same whatever bytes follow. -/
theorem scanOutcome_append {buf : List Byte} (h : (scanOutcome buf).isWait = false)
    (more : List Byte) : scanOutcome (buf ++ more) = scanOutcome buf := by
  unfold scanOutcome at h ⊢
  cases hh : headOf buf with
  | empty => simp [hh, ScanOutcome.isWait] at h
  | half => simp [hh, ScanOutcome.isWait] at h
  | noLength => simp [hh, ScanOutcome.isWait] at h
  | noMark => simp [headOf_append_noMark hh]
  | frame v n =>
    have ht := total_pos v n
    by_cases hl : buf.length < v.total n
    · simp [hh, hl, ScanOutcome.isWait] at h
    · have hl' : ¬ (buf ++ more).length < v.total n := by simp; omega
      rw [headOf_append hh]
      simp only [hl, hl', if_false]
      rw [stopTest_append (by omega) (by omega)]

/-- The shapes of R24 are exactly the buffers in which `SCAN_STEP` waits. -/
theorem settled_iff_wait (buf : List Byte) :
    (phaseOf buf).isSome = true ↔ (scanOutcome buf).isWait = true := by
  match buf with
  | [] => simp [phaseOf, scanOutcome, headOf, ScanOutcome.isWait]
  | [b] =>
    by_cases hb : isMarkByte b <;> simp [phaseOf, scanOutcome, headOf, ScanOutcome.isWait, hb]
  | b0 :: b1 :: rest =>
    cases hv : variantOf b0 b1 with
    | none => simp [phaseOf, varOf, scanOutcome, headOf, hv, ScanOutcome.isWait]
    | some v =>
      cases hl : lengthOf v (b0 :: b1 :: rest) with
      | none =>
        have hlen : (b0 :: b1 :: rest).length < 2 + v.lfs := by
          cases v with
          | std => match rest with
            | [] => simp [Variant.lfs, Config.lfsStd]
            | _ :: _ => simp [lengthOf] at hl
          | ext => match rest with
            | [] => simp [Variant.lfs, Config.lfsExt]
            | [_] => simp [Variant.lfs, Config.lfsExt]
            | _ :: _ :: _ => simp [lengthOf] at hl
        simp only [phaseOf, varOf, hv, scanOutcome, headOf, hl, if_pos hlen]
        simp [ScanOutcome.isWait]
      | some n =>
        have hlen : ¬ (b0 :: b1 :: rest).length < 2 + v.lfs := by
          cases v with
          | std => match rest with
            | [] => simp [lengthOf] at hl
            | _ :: _ => simp [Variant.lfs, Config.lfsStd]
          | ext => match rest with
            | [] => simp [lengthOf] at hl
            | [_] => simp [lengthOf] at hl
            | _ :: _ :: _ => simp [Variant.lfs, Config.lfsExt]
        simp only [phaseOf, varOf, hv, scanOutcome, headOf, hl, if_neg hlen]
        have ht : v.total n = 2 + v.lfs + n + 2 := rfl
        by_cases hs : (b0 :: b1 :: rest).length < v.total n
        · rw [if_pos hs, if_pos (by omega)]; simp [ScanOutcome.isWait]
        · rw [if_neg hs, if_neg (by omega)]
          split <;> simp [ScanOutcome.isWait]

end Sys2Proof.Machine
end

