-- ==== Sys2Proof/Laws/Frame.lean ====
section
/-! SUPPORT. The fields of a frame: byte order, markers, the length field, the stop marker, and the
places of the fields in the bytes of a frame. -/

namespace Sys2Proof.Machine

/-! ## Byte order -/

/-- The two bytes of a 16-bit value, high byte first, give the value back (R43). -/
@[simp] theorem be16_hi8_lo8 (w : Word16) : be16 (hi8 w) (lo8 w) = w := by
  apply BitVec.eq_of_getLsbD_eq
  intro i hi
  rw [be16, BitVec.getLsbD_append]
  interval_cases i <;> simp [hi8, lo8]

@[simp] theorem bytes16_length (w : Word16) : (bytes16 w).length = 2 := rfl

/-- A part in the middle of a sequence is its slice (R7). -/
theorem slice_append (a b c : List Byte) : slice (a ++ (b ++ c)) a.length (a.length + b.length) = b := by
  simp [slice]

/-- A two-byte field in the middle of a sequence holds its value (R68). -/
theorem fieldAt_append (a c : List Byte) (w : Word16) : fieldAt (a ++ (bytes16 w ++ c)) a.length = w := by
  simp [fieldAt, byteAt, bytes16]

/-! ## Markers -/

/-- A byte can begin a marker exactly if it is 0x78 or 0x79 (R12). -/
theorem isMarkByte_iff (b : Byte) : isMarkByte b = true ↔ b = 0x78 ∨ b = 0x79 := by
  simp [isMarkByte, Config.markStdByte, Config.markExtByte]

/-- Two bytes select a variant exactly if they are its marker (R61). -/
theorem variantOf_iff (b0 b1 : Byte) (v : Variant) : variantOf b0 b1 = some v ↔ [b0, b1] = v.mark := by
  cases v <;> simp [variantOf, Variant.mark, Variant.markByte, Config.markStdByte, Config.markExtByte]
  grind

@[simp] theorem mark_length (v : Variant) : v.mark.length = 2 := rfl

/-- The two variants have different markers. -/
theorem mark_injective {v w : Variant} (h : v.mark = w.mark) : v = w := by
  cases v <;> cases w <;>
    simp_all [Variant.mark, Variant.markByte, Config.markStdByte, Config.markExtByte]

/-- A sequence that begins with a marker has its two bytes. -/
theorem length_of_mark {F : List Byte} {v : Variant} (h : F.take 2 = v.mark) : 2 ≤ F.length := by
  have := congrArg List.length h
  simp at this
  omega

/-- A sequence that begins with a marker, taken apart. -/
theorem cons_of_mark {F : List Byte} {v : Variant} (h : F.take 2 = v.mark) :
    ∃ rest, F = v.markByte :: v.markByte :: rest := by
  match F with
  | [] => simp [Variant.mark] at h
  | [_] => simp [Variant.mark] at h
  | a :: b :: rest =>
    simp only [List.take_succ_cons, List.take_zero, Variant.mark, List.cons.injEq, and_true] at h
    exact ⟨rest, by rw [h.1, h.2]⟩

/-- The view `VAR` is the marker at the head (R25). -/
theorem varOf_iff {buf : List Byte} {v : Variant} : varOf buf = some v ↔ buf.take 2 = v.mark := by
  match buf with
  | [] => simp [varOf, Variant.mark]
  | [_] => simp [varOf, Variant.mark]
  | _ :: _ :: _ => simp [varOf, variantOf_iff]

/-! ## The length field -/

/-- While the length field is incomplete it has no value (R63). -/
theorem lengthOf_short {buf : List Byte} {v : Variant} (h : buf.length < 2 + v.lfs) :
    lengthOf v buf = none := by
  cases v with
  | std => match buf with
    | [] => rfl
    | [_] => rfl
    | [_, _] => rfl
    | _ :: _ :: _ :: _ => simp [Variant.lfs, Config.lfsStd] at h; omega
  | ext => match buf with
    | [] => rfl
    | [_] => rfl
    | [_, _] => rfl
    | [_, _, _] => rfl
    | _ :: _ :: _ :: _ :: _ => simp [Variant.lfs, Config.lfsExt] at h; omega

/-- A sequence whose length field has no value is shorter than its header (R63). -/
theorem lengthOf_none {buf : List Byte} {v : Variant} (h : lengthOf v buf = none) :
    buf.length < 2 + v.lfs := by
  cases v with
  | std => match buf with
    | [] => simp [Variant.lfs, Config.lfsStd]
    | [_] => simp [Variant.lfs, Config.lfsStd]
    | [_, _] => simp [Variant.lfs, Config.lfsStd]
    | _ :: _ :: _ :: _ => simp [lengthOf] at h
  | ext => match buf with
    | [] => simp [Variant.lfs, Config.lfsExt]
    | [_] => simp [Variant.lfs, Config.lfsExt]
    | [_, _] => simp [Variant.lfs, Config.lfsExt]
    | [_, _, _] => simp [Variant.lfs, Config.lfsExt]
    | _ :: _ :: _ :: _ :: _ => simp [lengthOf] at h

/-- The value of the length field fits the field (R63). -/
theorem lengthOf_le {buf : List Byte} {v : Variant} {n : Nat} (h : lengthOf v buf = some n) :
    n ≤ v.maxLength := by
  cases v with
  | std => match buf with
    | [] => simp [lengthOf] at h
    | [_] => simp [lengthOf] at h
    | [_, _] => simp [lengthOf] at h
    | _ :: _ :: x :: _ => simp [lengthOf] at h; simp [Variant.maxLength]; omega
  | ext => match buf with
    | [] => simp [lengthOf] at h
    | [_] => simp [lengthOf] at h
    | [_, _] => simp [lengthOf] at h
    | [_, _, _] => simp [lengthOf] at h
    | _ :: _ :: x :: y :: _ => simp [lengthOf] at h; simp [Variant.maxLength]; omega

/-- More bytes do not change a complete length field (R117). -/
theorem lengthOf_append {buf : List Byte} {v : Variant} {n : Nat} (h : lengthOf v buf = some n)
    (more : List Byte) : lengthOf v (buf ++ more) = some n := by
  cases v with
  | std => match buf with
    | [] => simp [lengthOf] at h
    | [_] => simp [lengthOf] at h
    | [_, _] => simp [lengthOf] at h
    | _ :: _ :: _ :: _ => simpa [lengthOf] using h
  | ext => match buf with
    | [] => simp [lengthOf] at h
    | [_] => simp [lengthOf] at h
    | [_, _] => simp [lengthOf] at h
    | [_, _, _] => simp [lengthOf] at h
    | _ :: _ :: _ :: _ :: _ => simpa [lengthOf] using h

@[simp] theorem lengthBytes_length (v : Variant) (n : Nat) : (v.lengthBytes n).length = v.lfs := by
  cases v <;> rfl

/-- The length field of a value that fits it reads as that value (R63, R68). -/
theorem lengthOf_lengthBytes (v : Variant) {n : Nat} (h : n ≤ v.maxLength) (rest : List Byte) :
    lengthOf v (v.mark ++ (v.lengthBytes n ++ rest)) = some n := by
  cases v with
  | std => simp [Variant.mark, Variant.lengthBytes, lengthOf, Variant.maxLength] at h ⊢; omega
  | ext => simp [Variant.mark, Variant.lengthBytes, lengthOf, bytes16, Variant.maxLength] at h ⊢; omega

/-! ## Heads -/

/-- The head of a sequence that begins with a marker is decided by the length field (R106). -/
theorem headOf_of_mark {buf : List Byte} {v : Variant} (h : buf.take 2 = v.mark) :
    headOf buf = match lengthOf v buf with
      | none => .noLength
      | some n => .frame v n := by
  obtain ⟨rest, rfl⟩ := cons_of_mark h
  have : variantOf v.markByte v.markByte = some v := (variantOf_iff _ _ _).2 rfl
  cases hn : lengthOf v (v.markByte :: v.markByte :: rest) <;> simp [headOf, this, hn]

/-- A frame head says exactly that a marker and a complete length field stand there (R12). -/
theorem headOf_frame_iff {buf : List Byte} {v : Variant} {n : Nat} :
    headOf buf = .frame v n ↔ buf.take 2 = v.mark ∧ lengthOf v buf = some n := by
  constructor
  · intro h
    match buf with
    | [] => simp [headOf] at h
    | [_] => simp only [headOf] at h; split at h <;> cases h
    | b0 :: b1 :: rest =>
      simp only [headOf] at h
      cases hv : variantOf b0 b1 with
      | none => simp [hv] at h
      | some w =>
        simp only [hv] at h
        cases hn : lengthOf w (b0 :: b1 :: rest) with
        | none => simp [hn] at h
        | some m =>
          simp only [hn, Head.frame.injEq] at h
          obtain ⟨rfl, rfl⟩ := h
          exact ⟨by simpa using (variantOf_iff _ _ _).1 hv, hn⟩
  · rintro ⟨h, hn⟩
    rw [headOf_of_mark h, hn]

/-- The heads that `SKIP` removes: certainly no marker begins there (R109). -/
theorem headOf_skip {b0 : Byte} {rest : List Byte}
    (h : (b0 ≠ 0x78 ∧ b0 ≠ 0x79) ∨
      ((b0 = 0x78 ∨ b0 = 0x79) ∧ ∃ b1 tail, rest = b1 :: tail ∧ b1 ≠ b0)) :
    headOf (b0 :: rest) = .noMark := by
  have key : ∀ b1 : Byte, (b0 ≠ 0x78 ∧ b0 ≠ 0x79) ∨ b1 ≠ b0 → variantOf b0 b1 = none := by
    intro b1 h
    simp [variantOf, Config.markStdByte, Config.markExtByte]
    grind
  rcases h with h | ⟨-, b1, tail, rfl, hne⟩
  · cases rest with
    | nil =>
      have : isMarkByte b0 = false := by
        by_contra hb
        rw [Bool.not_eq_false, isMarkByte_iff] at hb
        grind
      simp [headOf, this]
    | cons b1 tail => simp [headOf, key b1 (.inl h)]
  · simp [headOf, key b1 (.inr hne)]

/-! ## The stop marker -/

/-- The stop test at the end of a sequence looks at its last two bytes (R69, R112). -/
theorem stopTest_iff {F : List Byte} (h : 2 ≤ F.length) :
    stopTest F F.length = true ↔ F.drop (F.length - 2) = [0x0D, 0x0A] := by
  have hd : F.drop (F.length - 2) = [byteAt F (F.length - 2), byteAt F (F.length - 1)] := by
    have h1 : F.length - 2 < F.length := by omega
    have h2 : F.length - 1 < F.length := by omega
    rw [List.drop_eq_getElem_cons h1, show F.length - 2 + 1 = F.length - 1 by omega,
      List.drop_eq_getElem_cons h2, List.drop_of_length_le (by omega)]
    simp [byteAt, h1, h2]
  rw [hd]
  simp [stopTest, Config.stop0, Config.stop1]

/-! ## The bytes of a frame -/

/-- A frame begins with its marker (R60). -/
theorem frameBytes_mark (v : Variant) (body : FrameBody) (e0 e1 : Byte) :
    (frameBytes v body e0 e1).take 2 = v.mark := by
  simp [frameBytes, Variant.mark]

/-- The size of a frame (R64). -/
theorem frameBytes_length (v : Variant) (body : FrameBody) (e0 e1 : Byte) :
    (frameBytes v body e0 e1).length = v.total body.bytes.length := by
  simp [frameBytes, Variant.total]
  omega

/-- A frame's length field counts its body (R63). -/
theorem frameBytes_lengthOf (v : Variant) (body : FrameBody) (e0 e1 : Byte)
    (h : body.bytes.length ≤ v.maxLength) :
    lengthOf v (frameBytes v body e0 e1) = some body.bytes.length := by
  simp only [frameBytes, List.append_assoc]
  exact lengthOf_lengthBytes v h _

/-- A frame ends in the two bytes at the stop marker's offset (R69). -/
theorem frameBytes_stop (v : Variant) (body : FrameBody) (e0 e1 : Byte) :
    (frameBytes v body e0 e1).drop ((frameBytes v body e0 e1).length - 2) = [e0, e1] := by
  have : frameBytes v body e0 e1 = (v.mark ++ v.lengthBytes body.bytes.length ++ body.bytes) ++ [e0, e1] :=
    rfl
  rw [this]
  generalize v.mark ++ v.lengthBytes body.bytes.length ++ body.bytes = X
  simp

/-- How many bytes a body is. -/
theorem bytes_length (body : FrameBody) : body.bytes.length = body.size := by
  cases body with
  | fields p payload s c => simp [FrameBody.bytes, FrameBody.size, Config.minLength]
  | short bytes => rfl

/-- A well-formed body fits the length field (R63). -/
theorem size_le_of_wf {cap : Nat} {body : FrameBody} (h5 : 5 ≤ cap) (h : body.wf cap = true) :
    body.size ≤ cap := by
  cases body with
  | fields p payload s c => exact of_decide_eq_true h
  | short bytes => exact Nat.le_of_lt (Nat.lt_of_lt_of_le (of_decide_eq_true h) h5)

/-- The bare bytes of a well-formed body are fewer than the fields take (R71). -/
theorem short_of_wf {cap : Nat} {bytes : List Byte} (h : (FrameBody.short bytes).wf cap = true) :
    bytes.length < 5 := of_decide_eq_true h

end Sys2Proof.Machine
end

