-- ==== Sys2Proof/Laws/Codec.lean ====
section
/-! SUPPORT. The Frame Codec: the checks of `DECODE`, each said through the marker, the length field
and the stop marker of the sequence; and what the view `CRC_ACC` holds. -/

namespace Sys2Proof.Machine

/-- Every sequence is shorter than a marker, begins with none, or begins with one (R131). -/
theorem mark_cases (F : List Byte) :
    F.length < 2 ∨ (2 ≤ F.length ∧ F.take 2 ≠ [0x78, 0x78] ∧ F.take 2 ≠ [0x79, 0x79]) ∨
      ∃ v : Variant, F.take 2 = v.mark := by
  by_cases h : F.length < 2
  · exact .inl h
  · by_cases h1 : F.take 2 = [0x78, 0x78]
    · exact .inr (.inr ⟨.std, h1⟩)
    · by_cases h2 : F.take 2 = [0x79, 0x79]
      · exact .inr (.inr ⟨.ext, h2⟩)
      · exact .inr (.inl ⟨by omega, h1, h2⟩)

/-- Check 1: a sequence without two bytes is truncated (R132). -/
theorem decodeFrame_short (p : Params) {F : List Byte} (h : F.length < 2) :
    decodeFrame p F = .framingError .truncated F := by
  match F with
  | [] => rfl
  | [_] => rfl
  | _ :: _ :: _ => simp at h

/-- Check 2: a sequence that begins with no marker has a bad start (R133). -/
theorem decodeFrame_noMark (p : Params) {F : List Byte}
    (h : 2 ≤ F.length ∧ F.take 2 ≠ [0x78, 0x78] ∧ F.take 2 ≠ [0x79, 0x79]) :
    decodeFrame p F = .framingError .badStart F := by
  match F with
  | [] => simp at h
  | [_] => simp at h
  | a :: b :: rest =>
    have : variantOf a b = none := by
      cases hv : variantOf a b with
      | none => rfl
      | some v =>
        have hm := (variantOf_iff _ _ _).1 hv
        cases v with
        | std => exact absurd hm h.2.1
        | ext => exact absurd hm h.2.2
    simp [decodeFrame, this]

/-- Check 3: after a marker the length field decides how to go on (R131, R132). -/
theorem decodeFrame_of_mark (p : Params) {F : List Byte} {v : Variant} (h : F.take 2 = v.mark) :
    decodeFrame p F = match lengthOf v F with
      | none => .framingError .truncated F
      | some n => checkFrame p v n F := by
  obtain ⟨rest, rfl⟩ := cons_of_mark h
  have : variantOf v.markByte v.markByte = some v := (variantOf_iff _ _ _).2 rfl
  cases hn : lengthOf v (v.markByte :: v.markByte :: rest) <;> simp [decodeFrame, this, hn]

/-- Checks 4 to 6: size, stop marker, least length (R134 to R136). -/
theorem checkFrame_eq (p : Params) (v : Variant) (n : Nat) (F : List Byte) :
    checkFrame p v n F =
      if F.length ≠ v.total n then .framingError .lengthMismatch F
      else if F.drop (F.length - 2) ≠ [0x0D, 0x0A] then .framingError .badStop F
      else if n < 5 then .framingError .lengthTooShort F
      else checkChecksum p v n F := by
  have ht := total_pos v n
  unfold checkFrame
  by_cases hl : F.length = v.total n
  · have hs := stopTest_iff (F := F) (by omega)
    rw [if_neg (not_not.2 hl), if_neg (not_not.2 hl)]
    by_cases h : stopTest F F.length = true
    · rw [if_neg (by simp [h]), if_neg (not_not.2 (hs.1 h))]
      rfl
    · rw [if_pos (by simpa using h), if_pos (mt hs.2 h)]
  · simp [hl]

/-! ## The view `CRC_ACC` -/

/-- From the complete length field on, `CRC_ACC` is the register after what the buffer holds of the
checksummed range (R25, R170). -/
theorem crcAccOf_complete (p : Params) {buf : List Byte} {v : Variant} {n : Nat}
    (hv : varOf buf = some v) (hn : lengthOf v buf = some n) :
    crcAccOf p buf = some (crcFold p p.crcInit (rangeOf p.crcRange v n buf)) := by
  simp [crcAccOf, lenOf, crcRegister, rangeSoFar, hv, hn]

/-- While the length field is incomplete, the register holds the bytes of it that the range counts
(R170). -/
theorem crcRegister_incomplete (p : Params) {buf : List Byte} {v : Variant}
    (hv : varOf buf = some v) (hn : lengthOf v buf = none) :
    crcRegister p buf = crcFold p p.crcInit (buf.drop (rangeStart p.crcRange v)) := by
  simp [crcRegister, rangeSoFar, hv, hn]

/-- Without a marker the register is `CRC_INIT` (R170). -/
theorem crcRegister_noMark (p : Params) {buf : List Byte} (hv : varOf buf = none) :
    crcRegister p buf = p.crcInit := by
  simp [crcRegister, rangeSoFar, hv]

/-! ## The checksum -/

/-- Checks 7 and 8 give no framing error (R137, R138). -/
theorem checkChecksum_ne (p : Params) (v : Variant) (n : Nat) (F : List Byte) (sub : FramingSub)
    (raw : List Byte) : checkChecksum p v n F ≠ .framingError sub raw := by
  unfold checkChecksum
  simp only
  split <;> simp

end Sys2Proof.Machine
end

