-- ==== Sys2Proof/Laws/Reassembler.lean ====
section
/-! SUPPORT. The Reassembler: what each outcome makes of a context, what `PUSH` and `FEED` answer on
a served context, and how operations on one context compose. -/

namespace Sys2Proof.Machine

variable {s : State} {c c' : Ctx} {p : Params}

/-! ## The served context -/

/-- Putting a context back where it stands changes nothing. -/
theorem setCtx_self (h : s.ctxs[s.cur]? = some c) : s.setCtx c = s := by
  have : s.ctxs.set s.cur c = s.ctxs := by
    apply List.ext_getElem?
    intro i
    rw [List.getElem?_set]
    split
    · next hi => subst hi; rw [h, if_pos (List.getElem?_eq_some_iff.mp h).1]
    · rfl
  cases s
  simp_all [State.setCtx]

/-- Of two changes to the same context the second stands. -/
@[simp] theorem setCtx_setCtx (s : State) (c c' : Ctx) : (s.setCtx c).setCtx c' = s.setCtx c' := by
  simp [State.setCtx]

/-- A served context, once changed, is served still. -/
theorem serves_setCtx (h : s.Serves c) : (s.setCtx c').Serves c' := ⟨h.1, setCtx_served h.2⟩

/-! ## The outcomes -/

/-- `SKIP`: one byte goes, the episode is open, and the anomaly is emitted if it is due (R109). -/
theorem scanSkip_eq (c : Ctx) :
    scanSkip c = { buf := c.buf.drop 1, desync := true, out := c.out ++ dueGarbage c.desync } := by
  cases c with
  | mk buf desync out =>
    cases desync <;> simp [scanSkip, dueGarbage, Ctx.emit, Ctx.enterDesync, Ctx.bufDrop]

/-- `EMIT`: the slice goes, the episode ends, and the record of `DECODE` is emitted (R113). -/
theorem scanEmit_eq (p : Params) (total : Nat) (c : Ctx) :
    scanEmit p total c =
      { buf := c.buf.drop total, desync := false,
        out := c.out ++ [decodeFrame p (c.buf.take total)] } := by
  simp [scanEmit, Ctx.emit, Ctx.leaveDesync, Ctx.bufDrop, memRead_zero]

/-- `DROP`: the presumed frame goes, the episode is open, and the anomaly is emitted (R114). -/
theorem scanDrop_eq (total : Nat) (c : Ctx) :
    scanDrop total c =
      { buf := c.buf.drop total, desync := true, out := c.out ++ [.anomaly .stopMismatch] } := by
  simp [scanDrop, Ctx.emit, Ctx.enterDesync, Ctx.bufDrop]

/-- A certain non-marker at the head is skipped (R109). -/
theorem scanOutcome_skip {buf : List Byte} (h : headOf buf = .noMark) : scanOutcome buf = .skip := by
  simp [scanOutcome, h]

/-- A complete presumed frame at the head is emitted or dropped, by its stop marker (R112). -/
theorem scanOutcome_frame {v : Variant} {n : Nat} {F : List Byte} (hm : F.take 2 = v.mark)
    (hn : lengthOf v F = some n) (hl : F.length = v.total n) (rest : List Byte) :
    scanOutcome (F ++ rest) =
      if F.drop (F.length - 2) = [0x0D, 0x0A] then .emit F.length else .drop F.length := by
  have ht := total_pos v n
  have hh : headOf (F ++ rest) = .frame v n := headOf_append (headOf_frame_iff.2 ⟨hm, hn⟩) _
  have hs := stopTest_append (buf := F) (total := F.length) (by omega) (le_refl _) rest
  have hd := stopTest_iff (F := F) (by omega)
  simp only [scanOutcome, hh, ← hl, hs, ← hd]
  simp

/-- Bytes that follow do not disturb an outcome that is no wait (R117). -/
theorem scanStep_memAppend (h : (scanOutcome c.buf).isWait = false) (more : List Byte) :
    scanStep p (c.memAppend more) = (scanStep p c).memAppend more := by
  have ho : scanOutcome (c.memAppend more).buf = scanOutcome c.buf := scanOutcome_append h more
  obtain hw | ⟨hk, hl⟩ | ⟨v, n, -, hl, ⟨hk, -⟩ | ⟨hk, -⟩⟩ := scanOutcome_cases c.buf
  · simp [h] at hw
  · simp only [scanStep, ho, hk, applyOutcome, scanSkip_eq]
    apply ctx_eq <;> simp [List.drop_append_of_le_length hl]
  · simp only [scanStep, ho, hk, applyOutcome, scanEmit_eq]
    apply ctx_eq <;> simp [List.drop_append_of_le_length hl, List.take_append_of_le_length hl]
  · simp only [scanStep, ho, hk, applyOutcome, scanDrop_eq]
    apply ctx_eq <;> simp [List.drop_append_of_le_length hl]

/-- The row of an outcome completes where `SCAN_STEP` takes that outcome (R106). -/
theorem takeOutcome_taken {taken : ScanOutcome → Bool} (hs : s.Serves c)
    (h : taken (scanOutcome c.buf) = true) :
    s.onCtx (takeOutcome s.cfg taken) = .next (s.setCtx (scanStep s.cfg c)) := by
  rw [onCtx_served hs.1 hs.2, takeOutcome, if_pos h]
  rfl

/-- The row of an outcome has no transition where `SCAN_STEP` takes another outcome (R106). -/
theorem takeOutcome_other {taken : ScanOutcome → Bool} (hs : s.Serves c)
    (h : taken (scanOutcome c.buf) = false) :
    s.onCtx (takeOutcome s.cfg taken) = .refused .outcomeNotTaken := by
  rw [onCtx_served hs.1 hs.2, takeOutcome, h]
  rfl

/-! ## `PUSH` and `FEED` -/

/-- `PUSH` appends and scans, if there is room (R103). -/
theorem push_room {d : Byte} (h : c.buf.length < p.bufCap) :
    push p d c = some (scan p (c.memAppend [d])) := if_pos h

/-- `PUSH` keeps the form of R21. -/
theorem push_wf {d : Byte} (h : push p d c = some c') : Memory.wf p.bufCap c'.buf = true := by
  unfold push at h
  split at h
  · next hl =>
    cases h
    exact scan_wf (memAppend_wf hl d)
  · cases h

/-- `FEED` keeps the form of R21. -/
theorem feed_wf {bytes : List Byte} (hc : Memory.wf p.bufCap c.buf = true)
    (h : feed p bytes c = some c') : Memory.wf p.bufCap c'.buf = true := by
  induction bytes generalizing c with
  | nil =>
    simp only [feed, Option.some.injEq] at h
    exact h ▸ hc
  | cons b bs ih =>
    simp only [feed] at h
    cases hp : push p b c with
    | none => simp [hp] at h
    | some c1 =>
      simp only [hp, Option.bind_some] at h
      exact ih (push_wf hp) h

/-- `PUSH` on a served context is `push` of that context. -/
theorem exec_push (h : s.Serves c) (d : Byte) :
    exec (.push d) s = s.liftCtx (fullOr (push s.cfg d c)) := onCtx_served h.1 h.2

/-- `FEED` on a served context is `feed` of that context. -/
theorem exec_feed (h : s.Serves c) (bytes : List Byte) :
    exec (.feed bytes) s = s.liftCtx (fullOr (feed s.cfg bytes c)) := onCtx_served h.1 h.2

/-- Feeding two parts is feeding the one, then the other (R104). -/
theorem feed_append (p : Params) (a b : List Byte) (c : Ctx) :
    feed p (a ++ b) c = (feed p a c).bind (feed p b) := by
  induction a generalizing c with
  | nil => rfl
  | cons x xs ih =>
    simp only [feed, List.cons_append]
    cases push p x c <;> simp [ih]

/-- Executing two parts of a program is executing the one, then the other. -/
theorem execAll_append (a b : List Instr) (s : State) :
    execAll (a ++ b) s = match execAll a s with
      | .next t => execAll b t
      | .fault r => .fault r
      | .refused r => .refused r := by
  induction a generalizing s with
  | nil => rfl
  | cons i is ih =>
    simp only [execAll, List.cons_append]
    cases exec i s <;> simp [ih]

end Sys2Proof.Machine
end

