-- ==== Sys2Proof/Laws/Exec.lean ====
section
/-! SUPPORT. What `exec` can do, said once for all instructions: a row on a context is one operation
on that context, a stateless row is one answer, and `RST` raises the pin. -/

namespace Sys2Proof.Machine

variable {s t : State} {i : Instr}

/-- What a row on a context does to that context; for the other rows this says nothing. -/
def ctxEffect (p : Params) (i : Instr) (c : Ctx) : CtxResult :=
  match recordOf i with
  | some r => stepEmitting p r c
  | none =>
    match i with
    | .push d => fullOr (push p d c)
    | .clr _ => .next (clr c)
    | .feed bytes => fullOr (feed p bytes c)
    | .frameStd body e0 e1 => fullOr (feed p (frameBytes .std body e0 e1) c)
    | .frameExt body e0 e1 => fullOr (feed p (frameBytes .ext body e0 e1) c)
    | .frameNomark b0 b1 => fullOr (feed p (nomarkBytes b0 b1) c)
    | .scan => .next (scan p c)
    | .scanStep => .next (scanStep p c)
    | .waitEmpty => takeOutcome p (fun o => o == .waitEmpty) c
    | .waitHalf => takeOutcome p (fun o => o == .waitHalf) c
    | .skip => takeOutcome p (fun o => o == .skip) c
    | .waitHdr => takeOutcome p (fun o => o == .waitHdr) c
    | .waitBody => takeOutcome p (fun o => o == .waitBody) c
    | .emit => takeOutcome p (fun o => match o with | .emit _ => true | _ => false) c
    | .drop => takeOutcome p (fun o => match o with | .drop _ => true | _ => false) c
    | _ => .next c

/-- A row on a context is an operation on the served context (R51, R190). -/
theorem exec_onCtx (s : State) (h : actsOnContext i = true) :
    exec i s = s.onCtx (ctxEffect s.cfg i) := by
  cases i with
  | rst => simp [actsOnContext, isStateless] at h
  | inReserved x => simp [actsOnContext] at h
  | encack p sn => simp [actsOnContext, isStateless] at h
  | ack p sn c => simp [actsOnContext, isStateless] at h
  | decode F => simp [actsOnContext, isStateless] at h
  | crc16 bytes => simp [actsOnContext, isStateless] at h
  | crcUpdate c b => simp [actsOnContext, isStateless] at h
  | verify bytes expected => simp [actsOnContext, isStateless] at h
  | recTruncated raw => simp [actsOnContext, isStateless] at h
  | recBadStart raw => simp [actsOnContext, isStateless] at h
  | recLengthMismatch raw => simp [actsOnContext, isStateless] at h
  | recBadStop raw => simp [actsOnContext, isStateless] at h
  | _ => rfl

/-- A result of `DECODE` is returned where `DECODE` has it, and is no transition elsewhere (R140). -/
theorem returnRecord_cases (s : State) (raw : List Byte) (r : Record) :
    s.returnRecord raw r = s.respond (.record r) ∨ s.returnRecord raw r = .refused .outcomeNotTaken := by
  unfold State.returnRecord
  split
  · exact .inl rfl
  · exact .inr rfl

/-- Everything a stateless row can do when it answers a next state: return a value that is no
acknowledgment (R130, R140, R160), put an acknowledgment on `AQ` (R142), or transfer the first one
there (R77). -/
theorem exec_stateless_next (hs : isStateless i = true) (h : exec i s = .next t) :
    (∃ v, v.frame? = none ∧ t = { s with resp := s.resp ++ [v] }) ∨
    (∃ p sn, i = .encack p sn ∧ t = { s with aq := s.aq ++ [encAck s.cfg p sn] }) ∨
    ∃ frame rest, (∃ p sn c, i = .ack p sn c) ∧ s.aq = frame :: rest ∧
      t = { s with aq := rest, resp := s.resp ++ [.ack frame] } := by
  have returned : ∀ v : Response, v.frame? = none → s.respond v = .next t →
      ∃ v : Response, v.frame? = none ∧ t = { s with resp := s.resp ++ [v] } :=
    fun v hv h => ⟨v, hv, by simpa [State.respond] using h.symm⟩
  have record : ∀ (raw : List Byte) (r : Record), s.returnRecord raw r = .next t →
      ∃ v : Response, v.frame? = none ∧ t = { s with resp := s.resp ++ [v] } := by
    intro raw r h
    obtain hr | hr := returnRecord_cases s raw r
    · exact returned _ rfl (hr ▸ h)
    · rw [hr] at h
      cases h
  cases i with
  | encack p sn =>
    exact .inr (.inl ⟨p, sn, rfl, by simpa [exec, execEncack, State.putOnAq] using h.symm⟩)
  | ack p sn c =>
    obtain ⟨rest, hq, ht⟩ := takeFromAq_next h
    exact .inr (.inr ⟨_, rest, ⟨p, sn, c, rfl⟩, hq, ht⟩)
  | decode F => exact .inl (returned _ rfl h)
  | crc16 bytes => exact .inl (returned _ rfl h)
  | crcUpdate c b => exact .inl (returned _ rfl h)
  | verify bytes expected => exact .inl (returned _ rfl h)
  | recTruncated raw => exact .inl (record raw _ h)
  | recBadStart raw => exact .inl (record raw _ h)
  | recLengthMismatch raw => exact .inl (record raw _ h)
  | recBadStop raw => exact .inl (record raw _ h)
  | _ => simp [isStateless] at hs

/-- A stateless row changes nothing but the answers and `AQ`, and takes no answer back. -/
theorem exec_stateless_frame (hs : isStateless i = true) (h : exec i s = .next t) :
    ∃ aq resp, t = { s with aq := aq, resp := resp } ∧ s.resp <+: resp := by
  obtain ⟨v, -, rfl⟩ | ⟨p, sn, -, rfl⟩ | ⟨frame, rest, -, -, rfl⟩ := exec_stateless_next hs h
  · exact ⟨_, _, rfl, List.prefix_append _ _⟩
  · exact ⟨_, _, rfl, List.prefix_refl _⟩
  · exact ⟨_, _, rfl, List.prefix_append _ _⟩

/-- No row but `ENCACK` adds an acknowledgment, and none takes one back (R145). -/
theorem exec_stateless_acks (hs : isStateless i = true) (h : exec i s = .next t)
    (hne : ∀ p sn, i ≠ .encack p sn) : t.acks = s.acks := by
  obtain ⟨v, hv, rfl⟩ | ⟨p, sn, rfl, -⟩ | ⟨frame, rest, -, hq, rfl⟩ := exec_stateless_next hs h
  · simp [State.acks, hv]
  · exact absurd rfl (hne p sn)
  · simp [State.acks, hq, Response.frame?]

/-- Every instruction is a stateless row, `RST`, the reserved beat, or a row on a context. -/
theorem instr_cases (i : Instr) :
    isStateless i = true ∨ i = .rst ∨ (∃ x, i = .inReserved x) ∨ actsOnContext i = true := by
  cases i <;> simp [isStateless, actsOnContext]

/-- Everything `exec` can do when it answers a next state: `RST` raises the pin; a stateless row
answers (`exec_stateless_next` says how); a row on a context holds the reset, or changes the one context the channel serves. -/
theorem exec_next (h : exec i s = .next t) :
    (i = .rst ∧ t = s.raiseRst) ∨
    (isStateless i = true ∧ ∃ aq resp, t = { s with aq := aq, resp := resp } ∧ s.resp <+: resp) ∨
    (actsOnContext i = true ∧ s.rst = true ∧ t = s.holdReset) ∨
    (actsOnContext i = true ∧ ∃ c c', s.Serves c ∧ ctxEffect s.cfg i c = .next c' ∧ t = s.setCtx c') := by
  obtain hs | rfl | ⟨x, rfl⟩ | ha := instr_cases i
  · exact .inr (.inl ⟨hs, exec_stateless_frame hs h⟩)
  · exact .inl ⟨rfl, by simpa [exec, execRst] using h.symm⟩
  · simp [exec, execInReserved] at h
  · rw [exec_onCtx s ha] at h
    obtain ⟨hr, rfl⟩ | ⟨c, c', hr, hc, hf, rfl⟩ := onCtx_next h
    · exact .inr (.inr (.inl ⟨ha, hr, rfl⟩))
    · exact .inr (.inr (.inr ⟨ha, c, c', ⟨hr, hc⟩, hf, rfl⟩))

/-- The row of an outcome, where it completes, is one `SCAN_STEP` (R106). -/
theorem takeOutcome_next {p : Params} {taken : ScanOutcome → Bool} {c c' : Ctx}
    (h : takeOutcome p taken c = .next c') : c' = scanStep p c := by
  unfold takeOutcome at h
  split at h
  · simpa using h.symm
  · cases h

/-- The row of a record of the trace, where it completes, is one `SCAN_STEP`, and that step emits
exactly the record (R76, R182). -/
theorem stepEmitting_next {p : Params} {r : Record} {c c' : Ctx} (h : stepEmitting p r c = .next c') :
    c' = scanStep p c ∧ c'.out = c.out ++ [r] := by
  unfold stepEmitting at h
  split at h
  · next ho =>
    obtain rfl : scanStep p c = c' := by simpa using h
    exact ⟨rfl, ho⟩
  · cases h

/-- A delivery, where it completes, is `feed`. -/
theorem fullOr_next {o : Option Ctx} {c' : Ctx} (h : fullOr o = .next c') : o = some c' := by
  cases o with
  | none => cases h
  | some c => simpa [fullOr] using h

/-! ## The cause of an output -/

@[simp] theorem withCause_cfg (s : State) (x : Xfer) : (s.withCause x).cfg = s.cfg := by
  unfold State.withCause; repeat' split
  all_goals rfl

@[simp] theorem withCause_cur (s : State) (x : Xfer) : (s.withCause x).cur = s.cur := by
  unfold State.withCause; repeat' split
  all_goals rfl

@[simp] theorem withCause_pend (s : State) (x : Xfer) : (s.withCause x).pend = s.pend := by
  unfold State.withCause; repeat' split
  all_goals rfl

@[simp] theorem withCause_resp (s : State) (x : Xfer) : (s.withCause x).resp = s.resp := by
  unfold State.withCause; repeat' split
  all_goals rfl

/-! ## A row on a context -/

/-- The row of a record delivers no byte. -/
theorem recordOf_delivers_nothing {r : Record} (h : recordOf i = some r) : deliveredBytes i = [] := by
  cases i <;> simp [recordOf] at h <;> rfl

/-- Everything a row on a context can do to it: clear it, take the bytes the row delivers, scan, make
one step of the scan, or nothing. -/
theorem ctxEffect_next {p : Params} {c c' : Ctx} (h : ctxEffect p i c = .next c') :
    ((∃ x, i = .clr x) ∧ c' = clr c) ∨ feed p (deliveredBytes i) c = some c' ∨
      (i = .scan ∧ c' = scan p c) ∨ (deliveredBytes i = [] ∧ c' = scanStep p c) := by
  unfold ctxEffect at h
  split at h
  · next r hr => exact .inr (.inr (.inr ⟨recordOf_delivers_nothing hr, (stepEmitting_next h).1⟩))
  · cases i with
    | push d => exact .inr (.inl (by simpa [feed, deliveredBytes] using fullOr_next h))
    | clr x => exact .inl ⟨⟨x, rfl⟩, by simpa using h.symm⟩
    | feed bytes => exact .inr (.inl (fullOr_next h))
    | frameStd body e0 e1 => exact .inr (.inl (fullOr_next h))
    | frameExt body e0 e1 => exact .inr (.inl (fullOr_next h))
    | frameNomark b0 b1 => exact .inr (.inl (fullOr_next h))
    | scan => exact .inr (.inr (.inl ⟨rfl, by simpa using h.symm⟩))
    | scanStep => exact .inr (.inr (.inr ⟨rfl, by simpa using h.symm⟩))
    | waitEmpty => exact .inr (.inr (.inr ⟨rfl, takeOutcome_next h⟩))
    | waitHalf => exact .inr (.inr (.inr ⟨rfl, takeOutcome_next h⟩))
    | skip => exact .inr (.inr (.inr ⟨rfl, takeOutcome_next h⟩))
    | waitHdr => exact .inr (.inr (.inr ⟨rfl, takeOutcome_next h⟩))
    | waitBody => exact .inr (.inr (.inr ⟨rfl, takeOutcome_next h⟩))
    | emit => exact .inr (.inr (.inr ⟨rfl, takeOutcome_next h⟩))
    | drop => exact .inr (.inr (.inr ⟨rfl, takeOutcome_next h⟩))
    | _ => exact .inr (.inl (by simpa [deliveredBytes, feed] using h))

end Sys2Proof.Machine
end

