-- ==== Sys2Proof/Laws/PerInstr.lean ====
section
/-! SUPPORT. Statements made for every instruction, one lemma for each constructor. -/

namespace Sys2Proof.Laws.CallPort

/-- An instruction comes as a call, and not as bits on a port, exactly if it is one of the rows to
which the spec gives no bit encoding (R80, R105, R130, R162). -/
def Statement (i : Instr) : Prop := encode i = .call i ↔ i.isCall = true

theorem push (d : Byte) : Statement (.push d) :=
  iff_of_false Xfer.noConfusion Bool.false_ne_true

theorem clr (x : Byte) : Statement (.clr x) :=
  iff_of_false Xfer.noConfusion Bool.false_ne_true

theorem inReserved (x : BitVec 9) : Statement (.inReserved x) :=
  iff_of_false Xfer.noConfusion Bool.false_ne_true

theorem rst : Statement .rst :=
  iff_of_false Xfer.noConfusion Bool.false_ne_true

theorem feed (bytes : List Byte) : Statement (.feed bytes) :=
  iff_of_true rfl rfl

theorem frameStd (body : FrameBody) (stop0 stop1 : Byte) : Statement (.frameStd body stop0 stop1) :=
  iff_of_false Xfer.noConfusion Bool.false_ne_true

theorem frameExt (body : FrameBody) (stop0 stop1 : Byte) : Statement (.frameExt body stop0 stop1) :=
  iff_of_false Xfer.noConfusion Bool.false_ne_true

theorem frameNomark (b0 : Byte) (b1 : Option Byte) : Statement (.frameNomark b0 b1) :=
  iff_of_false Xfer.noConfusion Bool.false_ne_true

theorem encack (p : Byte) (s : Word16) : Statement (.encack p s) :=
  iff_of_false Xfer.noConfusion Bool.false_ne_true

theorem ack (p : Byte) (s c : Word16) : Statement (.ack p s c) :=
  iff_of_false Xfer.noConfusion Bool.false_ne_true

theorem recFrameOk (f : FrameFields) : Statement (.recFrameOk f) :=
  iff_of_false Xfer.noConfusion Bool.false_ne_true

theorem recChecksumError (raw : List Byte) (received computed : Word16) : Statement (.recChecksumError raw received computed) :=
  iff_of_false Xfer.noConfusion Bool.false_ne_true

theorem recTruncated (raw : List Byte) : Statement (.recTruncated raw) :=
  iff_of_false Xfer.noConfusion Bool.false_ne_true

theorem recBadStart (raw : List Byte) : Statement (.recBadStart raw) :=
  iff_of_false Xfer.noConfusion Bool.false_ne_true

theorem recLengthMismatch (raw : List Byte) : Statement (.recLengthMismatch raw) :=
  iff_of_false Xfer.noConfusion Bool.false_ne_true

theorem recBadStop (raw : List Byte) : Statement (.recBadStop raw) :=
  iff_of_false Xfer.noConfusion Bool.false_ne_true

theorem recLengthTooShort (raw : List Byte) : Statement (.recLengthTooShort raw) :=
  iff_of_false Xfer.noConfusion Bool.false_ne_true

theorem recGarbage : Statement .recGarbage :=
  iff_of_false Xfer.noConfusion Bool.false_ne_true

theorem recStopMismatch : Statement .recStopMismatch :=
  iff_of_false Xfer.noConfusion Bool.false_ne_true

theorem scan : Statement .scan :=
  iff_of_true rfl rfl

theorem scanStep : Statement .scanStep :=
  iff_of_true rfl rfl

theorem waitEmpty : Statement .waitEmpty :=
  iff_of_true rfl rfl

theorem waitHalf : Statement .waitHalf :=
  iff_of_true rfl rfl

theorem skip : Statement .skip :=
  iff_of_true rfl rfl

theorem waitHdr : Statement .waitHdr :=
  iff_of_true rfl rfl

theorem waitBody : Statement .waitBody :=
  iff_of_true rfl rfl

theorem emit : Statement .emit :=
  iff_of_true rfl rfl

theorem drop : Statement .drop :=
  iff_of_true rfl rfl

theorem decode (frame : List Byte) : Statement (.decode frame) :=
  iff_of_true rfl rfl

theorem crc16 (bytes : List Byte) : Statement (.crc16 bytes) :=
  iff_of_true rfl rfl

theorem crcUpdate (c : Word16) (b : Byte) : Statement (.crcUpdate c b) :=
  iff_of_true rfl rfl

theorem verify (bytes : List Byte) (expected : Word16) : Statement (.verify bytes expected) :=
  iff_of_true rfl rfl

end Sys2Proof.Laws.CallPort
end

