-- ==== Sys2Proof/Tests/Slice0.lean ====
section
/-! SUPPORT. Tests: ill-formed terms, decoding of words written out from the encodings, the test
vectors of `95_test_vectors.md` (named in each comment), and a witness for every statement that has
hypotheses. Expected values come from the spec. -/

namespace Sys2Proof.Tests

open Sys2Proof.Machine

-- Each kernel evaluation below would otherwise hold a thread of its own.
set_option Elab.async false

/-! ## Helpers -/

/-- A block with one context, running. -/
def start (buf : List Byte) (desync : Bool) : State :=
  { State.reset with ctxs := [{ buf := buf, desync := desync, out := [] }] }

/-- The current context after an instruction that answers a next state. -/
def after (r : Result) : Option Ctx :=
  match r with
  | .next t => t.ctxs[t.cur]?
  | .fault _ => none
  | .refused _ => none

/-- The values returned by an instruction that answers a next state. -/
def answers (r : Result) : List Response :=
  match r with
  | .next t => t.resp
  | .fault _ => []
  | .refused _ => []

/-- The responses on `AQ` after an instruction that answers a next state. -/
def onAq (r : Result) : List (List Byte) :=
  match r with
  | .next t => t.aq
  | .fault _ => []
  | .refused _ => []

/-- The refusal of an instruction that has no transition. -/
def refusal (r : Result) : Option Refusal :=
  match r with
  | .next _ => none
  | .fault _ => none
  | .refused e => some e

/-- The frame of V-ACK1. -/
def ack1 : List Byte := [0x78, 0x78, 0x05, 0x01, 0x00, 0x01, 0xD9, 0xDC, 0x0D, 0x0A]

/-- `LOGIN` of `95_test_vectors.md`. -/
def login : List Byte :=
  [0x78, 0x78, 0x0D, 0x01, 0x01, 0x23, 0x45, 0x67, 0x89, 0x01, 0x23, 0x45, 0x00, 0x01, 0x8C, 0xDD,
    0x0D, 0x0A]

/-- The fields of `LOGIN` (V-DEC1). -/
def loginFields : FrameFields where
  variant := .std
  length := 13
  protocolNumber := 0x01
  payload := [0x01, 0x23, 0x45, 0x67, 0x89, 0x01, 0x23, 0x45]
  serialNumber := 0x0001
  checksum := 0x8CDD
  raw := login

/-- `HB` of `95_test_vectors.md`. -/
def hb : List Byte := [0x78, 0x78, 0x05, 0x23, 0x00, 0x02, 0x5D, 0xC4, 0x0D, 0x0A]

/-- The fields of `HB` (V-DEC2). -/
def hbFields : FrameFields where
  variant := .std
  length := 5
  protocolNumber := 0x23
  payload := []
  serialNumber := 0x0002
  checksum := 0x5DC4
  raw := hb

/-- The record of `HB` (V-DEC2). -/
def hbRecord : Record := .frameOk hbFields

/-- `XF` of `95_test_vectors.md`. -/
def xf : List Byte :=
  [0x79, 0x79, 0x00, 0x08, 0x10, 0xAA, 0xBB, 0xCC, 0x00, 0x03, 0x85, 0x68, 0x0D, 0x0A]

/-- The record of `XF` (V-DEC3). -/
def xfRecord : Record := .frameOk {
  variant := .ext, length := 8, protocolNumber := 0x10, payload := [0xAA, 0xBB, 0xCC],
  serialNumber := 0x0003, checksum := 0x8568, raw := xf }

/-- A presumed frame of 8 bytes without its stop marker (V-STEP13). -/
def badStop : List Byte := [0x78, 0x78, 0x03, 0xAA, 0xBB, 0xCC, 0x0D, 0x0B]

/-- The default parameters but with `CRC_RANGE = FROM_PROTOCOL`. -/
def fromProtocol : Params := { Params.default with crcRange := .fromProtocol }

/-! ## Well-formedness: one ill-formed term for each check -/

/-- A standard body of 251 payload bytes does not fit a one-byte length field. -/
theorem test_wf_std_too_long :
    (Instr.frameStd (.fields 1 (List.replicate 251 0) 2 3) 0x0D 0x0A).wf = false := by decide +kernel

/-- The largest standard body does fit. -/
theorem test_wf_std_longest :
    (Instr.frameStd (.fields 1 (List.replicate 250 0) 2 3) 0x0D 0x0A).wf = true := by decide +kernel

/-- Five bare bytes are four fields, not a short body. -/
theorem test_wf_std_short : (Instr.frameStd (.short [1, 2, 3, 4, 5]) 0x0D 0x0A).wf = false := by decide

/-- No extended body of more than 65530 payload bytes fits a two-byte length field. -/
theorem test_wf_ext_too_long (payload : List Byte) (h : 65530 < payload.length) :
    (Instr.frameExt (.fields 1 payload 2 3) 0x0D 0x0A).wf = false := by
  refine decide_eq_false ?_
  simp only [FrameBody.size, Config.minLength]
  omega

theorem test_wf_ext_short : (Instr.frameExt (.short [1, 2, 3, 4, 5]) 0x0D 0x0A).wf = false := by decide

/-- A lone marker byte may yet become a marker. -/
theorem test_wf_nomark_half : (Instr.frameNomark 0x79 none).wf = false := by decide

/-- Two equal marker bytes are a marker. -/
theorem test_wf_nomark_mark : (Instr.frameNomark 0x78 (some 0x78)).wf = false := by decide

/-- A byte that begins no marker stands alone. -/
theorem test_wf_nomark_pair : (Instr.frameNomark 0x12 (some 0x34)).wf = false := by decide

/-- A record whose payload does not have `length - 5` bytes. -/
theorem test_wf_record_payload : (Instr.recFrameOk { loginFields with length := 12 }).wf = false := by
  decide

/-- A record whose slice does not have `total` bytes. -/
theorem test_wf_record_raw : (Instr.recFrameOk { loginFields with raw := hb }).wf = false := by decide

theorem test_wf_record : (Instr.recFrameOk loginFields).wf = true := by decide

/-! ## Decoding of words written out from the encodings -/

/-- R75: `op` 00, `data` 0111 1000. -/
theorem test_decode_push : decode (.inBeat 0b00_0111_1000) = .ok (.push 0x78) := by decide

/-- R75: `op` 01; the data bits are ignored, and kept. -/
theorem test_decode_clr : decode (.inBeat 0b01_1010_0101) = .ok (.clr 0xA5) := by decide

/-- R75, U13: `op` 10 and 11. -/
theorem test_decode_reserved :
    decode (.inBeat 0b10_0000_0000) = .ok (.inReserved 0) ∧
      decode (.inBeat 0b11_1111_1111) = .ok (.inReserved 0x1FF) := by decide

theorem test_decode_rst : decode (.rstPin 1) = .ok .rst := by decide

/-- R77, V-ACK5: the request word 0x13ABCD. -/
theorem test_decode_encack : decode (.aqRequest 0x13ABCD) = .ok (.encack 0x13 0xABCD) := by decide

/-- R77, V-ACK1 as an 80-bit word. -/
theorem test_decode_ack :
    decode (.aqResponse 0x787805010001D9DC0D0A) = .ok (.ack 0x01 0x0001 0xD9DC) := by decide +kernel

/-- R77: another stop marker is no response. -/
theorem test_decode_ack_refused :
    decode (.aqResponse 0x787805010001D9DC0D0B) = .error .notAResponse := by decide +kernel

/-- R65: `LOGIN` on the wire. -/
theorem test_decode_frame_std :
    decode (.wire login) = .ok (.frameStd
      (.fields 0x01 [0x01, 0x23, 0x45, 0x67, 0x89, 0x01, 0x23, 0x45] 0x0001 0x8CDD) 0x0D 0x0A) := by
  decide +kernel

/-- R71: a length below 5 leaves bare bytes, with whatever stands at the stop marker's offset. -/
theorem test_decode_frame_short :
    decode (.wire badStop) = .ok (.frameStd (.short [0xAA, 0xBB, 0xCC]) 0x0D 0x0B) := by decide +kernel

/-- R66: `XF` on the wire. -/
theorem test_decode_frame_ext :
    decode (.wire xf) =
      .ok (.frameExt (.fields 0x10 [0xAA, 0xBB, 0xCC] 0x0003 0x8568) 0x0D 0x0A) := by decide +kernel

/-- R73, R109: bytes that begin no marker. -/
theorem test_decode_nomark :
    decode (.wire [0x12]) = .ok (.frameNomark 0x12 none) ∧
      decode (.wire [0x78, 0x79]) = .ok (.frameNomark 0x78 (some 0x79)) := by decide +kernel

/-- R76: `rc` 10, `sub` 101. -/
theorem test_decode_record :
    decode (.outRecord 0b10 0b101 { raw := [0x78] }) = .ok (.recLengthTooShort [0x78]) := by decide

/-- R76, U20: a tag that is never produced. -/
theorem test_decode_record_refused :
    decode (.outRecord 0b11 0b000 {}) = .error (.unknownRecord 3 0) := by decide

/-- R76: the fields of a `FRAME_OK` have the sizes that its `length` says. -/
theorem test_decode_record_sizes :
    decode (.outRecord 0 0 loginFields.recordFields) = .ok (.recFrameOk loginFields) ∧
      decode (.outRecord 0 0 {}) = .error .illFormedRecord := by decide

theorem test_decode_call : decode (.call .scan) = .ok .scan := by decide

/-! ## The Checksum Engine -/

/-- V-CRC2, V-CRC4, V-CRC6. -/
theorem test_crc16 :
    answers (exec (.crc16 [0x31, 0x32, 0x33, 0x34, 0x35, 0x36, 0x37, 0x38, 0x39]) State.reset) =
        [.word 0x906E] ∧
      answers (exec (.crc16 [0x05, 0x01, 0x00, 0x01]) State.reset) = [.word 0xD9DC] ∧
      answers (exec (.crc16 (login.drop 2 |>.take 12)) State.reset) = [.word 0x8CDD] := by
  decide +kernel

/-- V-CRC13 (a) and (e): parameters other than the default. -/
theorem test_crc16_parameters :
    crc16 { Params.default with crcRefin := false, crcRefout := false, crcXorout := 0 }
        [0x05, 0x01, 0x00, 0x01] = 0x1F94 ∧
      crc16 { Params.default with crcPoly := 0x8005, crcInit := 0, crcXorout := 0 }
        [0x05, 0x01, 0x00, 0x01] = 0xCC90 := by decide +kernel

/-- V-CRC5. -/
theorem test_crc_update :
    answers (exec (.crcUpdate 0xFFFF 0x05) State.reset) = [.word 0x541A] := by decide +kernel

/-- V-CRC12. -/
theorem test_crc_table :
    [crcTable 0x00, crcTable 0x01, crcTable 0x80, crcTable 0xFF] = [0x0000, 0x1189, 0x8408, 0x0F78] := by
  decide +kernel

/-- R170: the register as the bytes of an acknowledgment arrive. -/
theorem test_crc_register :
    [2, 3, 4, 5, 6, 10].map (fun k => crcRegister Params.default
        ([0x78, 0x78, 0x05, 0x01, 0x00, 0x01, 0xD9, 0xDC, 0x0D, 0x0A].take k)) =
      [0xFFFF, 0x541A, 0x91F9, 0x6A98, 0xC464, 0xC464] := by decide +kernel

/-- V-CRC8. -/
theorem test_verify :
    answers (exec (.verify [0x05, 0x01, 0x00, 0x01] 0xD9DC) State.reset) = [.truth true] ∧
      answers (exec (.verify [0x05, 0x01, 0x00, 0x01] 0xD9DD) State.reset) = [.truth false] ∧
      answers (exec (.verify [0x05, 0x01, 0x00, 0x00] 0xD9DC) State.reset) = [.truth false] := by
  decide +kernel

/-! ## The Frame Codec -/

/-- V-DEC1, V-DEC3. -/
theorem test_decode_ok :
    answers (exec (.decode login) State.reset) = [.record (.frameOk loginFields)] ∧
      answers (exec (.decode xf) State.reset) = [.record xfRecord] := by decide +kernel

/-- V-DEC8, V-DEC9, V-DEC16, V-DEC17, V-DEC13, V-DEC11: one sequence for each failed check. -/
theorem test_decode_errors :
    decodeFrame Params.default [0x79, 0x79, 0x00] =
        .framingError .truncated [0x79, 0x79, 0x00] ∧
      decodeFrame Params.default [0x78, 0x79, 0x05] = .framingError .badStart [0x78, 0x79, 0x05] ∧
      decodeFrame Params.default [0x78, 0x78, 0x06, 0x01, 0x00, 0x01, 0xD9, 0xDC, 0x0D, 0x0B] =
        .framingError .lengthMismatch [0x78, 0x78, 0x06, 0x01, 0x00, 0x01, 0xD9, 0xDC, 0x0D, 0x0B] ∧
      decodeFrame Params.default [0x78, 0x78, 0x04, 0x01, 0x00, 0x01, 0x00, 0x0D, 0x0B] =
        .framingError .badStop [0x78, 0x78, 0x04, 0x01, 0x00, 0x01, 0x00, 0x0D, 0x0B] ∧
      decodeFrame Params.default [0x79, 0x79, 0x00, 0x00, 0x0D, 0x0A] =
        .framingError .lengthTooShort [0x79, 0x79, 0x00, 0x00, 0x0D, 0x0A] ∧
      decodeFrame Params.default [0x78, 0x78, 0x05, 0x01, 0x00, 0x01, 0xD9, 0xDD, 0x0D, 0x0A] =
        .checksumError [0x78, 0x78, 0x05, 0x01, 0x00, 0x01, 0xD9, 0xDD, 0x0D, 0x0A] 0xD9DD 0xD9DC := by
  decide +kernel

/-- V-DEC15. -/
theorem test_decode_other_range :
    decodeFrame fromProtocol login = .checksumError login 0x8CDD 0x6918 := by decide +kernel

/-- V-ACK5, and V-ACK1 under the other range. -/
theorem test_encack :
    onAq (exec (.encack 0x13 0xABCD) State.reset) =
        [[0x78, 0x78, 0x05, 0x13, 0xAB, 0xCD, 0xAE, 0xC6, 0x0D, 0x0A]] ∧
      encAck fromProtocol 0x01 0x0001 =
        [0x78, 0x78, 0x05, 0x01, 0x00, 0x01, 0x8D, 0x99, 0x0D, 0x0A] := by decide +kernel

/-- V-ACK1: the request, and then the transfer of its response. -/
theorem test_ack :
    answers (execAll [.encack 0x01 0x0001, .ack 0x01 0x0001 0xD9DC] State.reset) = [.ack ack1] ∧
      onAq (execAll [.encack 0x01 0x0001, .ack 0x01 0x0001 0xD9DC] State.reset) = [] := by
  decide +kernel

/-- R145: without a request, and with another checksum, nothing is sent. -/
theorem test_ack_unasked :
    refusal (exec (.ack 0x01 0x0001 0xD9DC) State.reset) = some .responseNotOwed ∧
      refusal (execAll [.encack 0x01 0x0001, .ack 0x01 0x0001 0xD9DD] State.reset) =
        some .responseNotOwed := by decide +kernel

/-! ## The Reassembler -/

/-- V-STEP4: the last byte of a frame. -/
theorem test_push_emits :
    after (exec (.push 0x0A) (start [0x78, 0x78, 0x05, 0x23, 0x00, 0x02, 0x5D, 0xC4, 0x0D] false)) =
      some ⟨[], false, [hbRecord]⟩ := by decide +kernel

/-- V-STEP8: both bytes are skipped, and the anomaly is raised once. -/
theorem test_push_skips_twice :
    after (exec (.push 0xFF) (start [0x78] false)) = some ⟨[], true, [.anomaly .garbage]⟩ := by
  decide +kernel

/-- V-STEP18. -/
theorem test_clr : after (exec (.clr 0) (start [0x78] true)) = some ⟨[], false, []⟩ := by decide

/-- V-STEP19. -/
theorem test_rst :
    exec .rst (start [0x78, 0x78, 0x0D, 0x01] true) = .next { start [] false with rst := true } :=
  rfl

/-- R118. -/
theorem test_reserved : exec (.inReserved 5) (start [] false) = .refused .reservedBeat := rfl

/-- V-STRM12. -/
theorem test_feed :
    after (exec (.feed [0xAA, 0x78, 0x78, 0x00, 0x0D, 0x0A, 0xBB]) (start [] false)) =
      some ⟨[], true, [.anomaly .garbage,
        .framingError .lengthTooShort [0x78, 0x78, 0x00, 0x0D, 0x0A], .anomaly .garbage]⟩ := by
  decide +kernel

/-- P2, delivery 4: the rest of `LOGIN` and the first byte of `HB`. -/
theorem test_feed_across_frames :
    after (exec (.feed [0x0A, 0x78]) (start (login.take 17) false)) =
      some ⟨[0x78], false, [.frameOk loginFields]⟩ := by decide +kernel

/-- V-STEP13, as a frame on the wire. -/
theorem test_frame_std :
    after (exec (.frameStd (.short [0xAA, 0xBB, 0xCC]) 0x0D 0x0B) (start [] false)) =
      some ⟨[], true, [.anomaly .stopMismatch]⟩ := by decide +kernel

/-- V-STRM3: `XF` after a stray 78. -/
theorem test_frame_ext :
    after (exec (.frameExt (.fields 0x10 [0xAA, 0xBB, 0xCC] 0x0003 0x8568) 0x0D 0x0A)
      (start [0x78] false)) = some ⟨[], false, [.anomaly .garbage, xfRecord]⟩ := by decide +kernel

/-- V-STRM1: `79 78` keeps the 78. -/
theorem test_frame_nomark :
    after (exec (.frameNomark 0x79 (some 0x78)) (start [] false)) =
      some ⟨[0x78], true, [.anomaly .garbage]⟩ := by decide +kernel

/-- R105: the scan takes two frames, and waits in the third. -/
theorem test_scan :
    after (exec .scan (start (hb ++ badStop ++ [0x79]) false)) =
      some ⟨[0x79], true, [hbRecord, .anomaly .stopMismatch]⟩ := by decide +kernel

/-- R106: one step takes one frame. -/
theorem test_scan_step :
    after (exec .scanStep (start (badStop ++ hb) false)) =
      some ⟨hb, true, [.anomaly .stopMismatch]⟩ := by decide +kernel

/-- R107. -/
theorem test_wait_empty : exec .waitEmpty (start [] true) = .next (start [] true) := rfl

/-- R108. -/
theorem test_wait_half : exec .waitHalf (start [0x79] false) = .next (start [0x79] false) := rfl

/-- V-STEP9: an extended frame waits for its second length byte. -/
theorem test_wait_hdr :
    exec .waitHdr (start [0x79, 0x79, 0x00] false) = .next (start [0x79, 0x79, 0x00] false) := rfl

/-- V-STEP12: the third 78 is the length. -/
theorem test_wait_body :
    exec .waitBody (start [0x78, 0x78, 0x78] false) = .next (start [0x78, 0x78, 0x78] false) := rfl

/-- R109: in an episode no second anomaly. -/
theorem test_skip : after (exec .skip (start [0x0D, 0x0A] true)) = some ⟨[0x0A], true, []⟩ := by decide

/-- V-STEP16: a checksum error ends the episode as well. -/
theorem test_emit :
    after (exec .emit (start [0x78, 0x78, 0x05, 0x23, 0x00, 0x02, 0xDD, 0xC4, 0x0D, 0x0A] true)) =
      some ⟨[], false, [.checksumError [0x78, 0x78, 0x05, 0x23, 0x00, 0x02, 0xDD, 0xC4, 0x0D, 0x0A]
        0xDDC4 0x5DC4]⟩ := by decide +kernel

/-- V-STEP14: the anomaly is raised every time. -/
theorem test_drop :
    after (exec .drop (start badStop true)) = some ⟨[], true, [.anomaly .stopMismatch]⟩ := by
  decide +kernel

/-- R106: the row of another outcome has no transition. -/
theorem test_other_outcome : exec .emit (start badStop false) = .refused .outcomeNotTaken := rfl

/-- V-DEC2: the row of a frame's record is the `EMIT` of that frame. -/
theorem test_record_frame :
    after (exec (.recFrameOk hbFields) (start hb true)) = some ⟨[], false, [hbRecord]⟩ := by
  decide +kernel

/-- V-DEC2 with another checksum field, as in `test_emit`. -/
theorem test_record_checksum :
    let raw : List Byte := [0x78, 0x78, 0x05, 0x23, 0x00, 0x02, 0xDD, 0xC4, 0x0D, 0x0A]
    after (exec (.recChecksumError raw 0xDDC4 0x5DC4) (start raw true)) =
      some ⟨[], false, [.checksumError raw 0xDDC4 0x5DC4]⟩ := by decide +kernel

/-- R136: `n = 0`. -/
theorem test_record_short :
    after (exec (.recLengthTooShort [0x78, 0x78, 0x00, 0x0D, 0x0A])
      (start [0x78, 0x78, 0x00, 0x0D, 0x0A] true)) =
      some ⟨[], false, [.framingError .lengthTooShort [0x78, 0x78, 0x00, 0x0D, 0x0A]]⟩ := by
  decide +kernel

/-- R109, R27: the anomaly is due at the first garbage of an episode only. -/
theorem test_record_garbage :
    after (exec .recGarbage (start [0x0D, 0x0A] false)) = some ⟨[0x0A], true, [.anomaly .garbage]⟩ ∧
      exec .recGarbage (start [0x0D, 0x0A] true) = .refused .outcomeNotTaken := ⟨by decide, rfl⟩

/-- R114. -/
theorem test_record_stop_mismatch :
    after (exec .recStopMismatch (start badStop true)) = some ⟨[], true, [.anomaly .stopMismatch]⟩ := by
  decide +kernel

/-- R132 to R135, R140: the sequences of the spec's examples; no trace holds the record. -/
theorem test_record_decode_only :
    answers (exec (.recTruncated [0x79, 0x79, 0x00]) State.reset) =
        [.record (.framingError .truncated [0x79, 0x79, 0x00])] ∧
      answers (exec (.recBadStart [0x12, 0x34, 0x05]) State.reset) =
        [.record (.framingError .badStart [0x12, 0x34, 0x05])] ∧
      answers (exec (.recLengthMismatch [0x78, 0x78, 0x06, 0x01, 0x00, 0x01, 0xD9, 0xDC, 0x0D, 0x0A])
        State.reset) = [.record (.framingError .lengthMismatch
          [0x78, 0x78, 0x06, 0x01, 0x00, 0x01, 0xD9, 0xDC, 0x0D, 0x0A])] ∧
      answers (exec (.recBadStop [0x78, 0x78, 0x05, 0x01, 0x00, 0x01, 0xD9, 0xDC, 0x0D, 0x0B])
        State.reset) = [.record (.framingError .badStop
          [0x78, 0x78, 0x05, 0x01, 0x00, 0x01, 0xD9, 0xDC, 0x0D, 0x0B])] ∧
      after (exec (.recTruncated [0x78]) (start [0x78] true)) = some ⟨[0x78], true, []⟩ := by
  decide +kernel

/-- R76: a record that the block does not produce there. -/
theorem test_record_without_cause :
    exec .recStopMismatch (start [0x78] true) = .refused .outcomeNotTaken ∧
      exec (.recTruncated [0x78, 0x78, 0x00]) (start [] true) = .refused .outcomeNotTaken :=
  ⟨rfl, rfl⟩

/-- R29: the status after program P3's end state. -/
theorem test_status : Ctx.status ⟨[0x78], false, []⟩ = ⟨0, 1, 1⟩ := by decide

/-! ## Witnesses: each shows a state and operands that meet the hypotheses of a statement -/

/-- A running block with one context serves it. -/
theorem start_serves (buf : List Byte) (desync : Bool) :
    (start buf desync).Serves { buf := buf, desync := desync, out := [] } := ⟨rfl, rfl⟩

/-- A block whose reset pin is held at 1, with the offers `pend`. -/
def held (pend : List Offer) : State := { State.reset with rst := true, pend := pend }

theorem witness_DecodeOfEncodeIsIdentity :
    (Instr.frameStd (.short [1, 2, 3, 4]) 0x0D 0x0B).wf = true ∧
      (Instr.frameExt (.fields 1 [] 2 3) 0x0D 0x0A).wf = true ∧
      (Instr.frameNomark 0x77 none).wf = true ∧ (Instr.frameNomark 0x79 (some 0x78)).wf = true ∧
      (Instr.recFrameOk loginFields).wf = true := by decide

theorem witness_StepRunsDecodedInstruction :
    let s : State := { State.reset with pend := [⟨0, .inBeat 0x078⟩] }
    s.pend = ⟨0, .inBeat 0x078⟩ :: [] ∧ (s.rst = true → Xfer.isBeat (.inBeat 0x078) = false) ∧
      decode (.inBeat 0x078) = .ok (.push 0x78) := by decide

theorem witness_BeatsStayOfferedWhileReset :
    let s := held [⟨0, .inBeat 0x078⟩, ⟨0, .aqRequest 0x010001⟩]
    s.rst = true ∧ (∀ b ∈ [(⟨0, .inBeat 0x078⟩ : Offer)], b.xfer.isBeat = true) ∧
      Xfer.isBeat (.aqRequest 0x010001) = false ∧
      s.pend = [⟨0, .inBeat 0x078⟩] ++ ⟨0, .aqRequest 0x010001⟩ :: [] ∧
      decode (.aqRequest 0x010001) = .ok (.encack 0x01 0x0001) := by decide

/-- Both clauses: running with nothing offered, and held with only beats offered. -/
theorem witness_WaitingChangesNothing :
    (State.reset.Inv ∧ State.reset.rst = false ∧ State.reset.pend = []) ∧
      (held [⟨0, .inBeat 0x078⟩]).Inv ∧ (held [⟨0, .inBeat 0x078⟩]).rst = true ∧
        ∀ o ∈ (held [⟨0, .inBeat 0x078⟩]).pend, o.xfer.isBeat = true := by
  refine ⟨⟨⟨?_, ?_, ?_⟩, ?_, ?_⟩, ⟨?_, ?_, ?_⟩, ?_, ?_⟩ <;> decide

theorem witness_PinLowReleasesReset :
    (held [⟨0, .rstPin 0⟩]).pend = ⟨0, .rstPin 0⟩ :: [] := by decide

theorem witness_ResetValuesAfterRstAndClr :
    (start [0x78, 0x78, 0x0D, 0x01] true).Serves ⟨[0x78, 0x78, 0x0D, 0x01], true, []⟩ :=
  start_serves _ _

theorem witness_ClrEmptiesItsContext : (start [0x78] true).Serves ⟨[0x78], true, []⟩ :=
  start_serves _ _

theorem witness_NothingAcceptedWhileReset :
    (held []).Inv ∧ (held []).rst = true ∧ actsOnContext (.push 0x78) = true := by
  refine ⟨⟨?_, ?_, ?_⟩, ?_, ?_⟩ <;> decide

/-- The boundary: the only context of the block is 0. -/
theorem witness_MissingContextFaults :
    let s : State := { State.reset with cur := 1 }
    s.rst = false ∧ s.ctxs[s.cur]? = none ∧ actsOnContext .scan = true := by decide

theorem witness_PushIntoEmptyBuffer :
    (start [] true).Serves ⟨[], true, []⟩ ∧ 0 < (start [] true).cfg.bufCap :=
  ⟨start_serves _ _, by decide⟩

theorem witness_PushAfterHalfMarker :
    (start [0x79] false).Serves ⟨[0x79], false, []⟩ ∧
      ((0x79 : Byte) = 0x78 ∨ (0x79 : Byte) = 0x79) ∧ 1 < (start [0x79] false).cfg.bufCap :=
  ⟨start_serves _ _, by decide, by decide⟩

/-- The boundary: with the byte the buffer is one short of `total`. -/
theorem witness_PushIntoPartialFrame :
    (start (hb.take 8) false).Serves ⟨hb.take 8, false, []⟩ ∧ Settled (hb.take 8) ∧
      2 ≤ (hb.take 8).length ∧ (hb.take 8).length < (start (hb.take 8) false).cfg.bufCap ∧
      totalOf (hb.take 8 ++ [0x0D]) = some 10 ∧ (hb.take 8).length + 1 < 10 :=
  ⟨start_serves _ _, by decide +kernel, by decide, by decide, by decide +kernel, by decide⟩

/-- Both cases of the stop test. -/
theorem witness_PushCompletesFrame :
    (start (hb.take 9) true).Serves ⟨hb.take 9, true, []⟩ ∧ Settled (hb.take 9) ∧
      totalOf (hb.take 9) = some ((hb.take 9).length + 1) ∧
      (hb.take 9).length < (start (hb.take 9) true).cfg.bufCap ∧
      (hb.take 9 ++ [0x0A]).drop ((hb.take 9).length - 1) = [0x0D, 0x0A] ∧
      (hb.take 9 ++ [0x0B]).drop ((hb.take 9).length - 1) ≠ [0x0D, 0x0A] :=
  ⟨start_serves _ _, by decide +kernel, by decide +kernel, by decide, by decide, by decide⟩

theorem witness_PushEmitsAtMostOneRecord :
    Settled [(0x78 : Byte)] ∧
      push Params.default 0xFF ⟨[0x78], false, []⟩ = some ⟨[], true, [.anomaly .garbage]⟩ := by
  decide +kernel

theorem witness_DeliveriesAreAccepted :
    (start [0x79] true).Inv ∧ (start [0x79] true).cfg.Legal ∧ (start [0x79] true).rst = false ∧
      (start [0x79] true).cur < (start [0x79] true).ctxs.length := by
  refine ⟨⟨?_, ?_, ?_⟩, ?_, ?_, ?_⟩ <;> decide

/-- The boundary: the delivery leaves the frame one byte short. -/
theorem witness_PartialFrameWaits :
    (start (hb.take 3) false).Serves ⟨hb.take 3, false, []⟩ ∧ totalOf (hb.take 3) = some 10 ∧
      (hb.take 3).length + [(1 : Byte), 2, 3, 4, 5, 6].length < 10 ∧
      (hb.take 3).length + [(1 : Byte), 2, 3, 4, 5, 6].length < (start (hb.take 3) false).cfg.bufCap :=
  ⟨start_serves _ _, by decide +kernel, by decide, by decide⟩

/-- Both reserved codes. -/
theorem witness_ReservedBeatIsRefused :
    (0x200 : BitVec 10).getLsbD 9 = true ∧ (0x300 : BitVec 10).getLsbD 9 = true := by decide

theorem witness_FeedIsItsPushBeats : (start [0x78] false).Serves ⟨[0x78], false, []⟩ :=
  start_serves _ _

theorem witness_ChunkingDoesNotMatter : (start [] false).Serves ⟨[], false, []⟩ := start_serves _ _

theorem witness_WholeDeliveryScanAgrees : Params.default.Legal ∧ Settled [(0x79 : Byte)] := by decide

theorem witness_ScanIsStepsUntilAWait :
    (start (badStop ++ hb) false).Serves ⟨badStop ++ hb, false, []⟩ := start_serves _ _

/-- The last clause at both ends: an empty buffer, and one with every bit of `STATUS` at work. -/
theorem witness_ScanLeavesABoundedShape :
    Settled [] ∧ Ctx.status ⟨[0x79, 0x79, 0xFF, 0xFF], true, []⟩ = ⟨1, 1, 4⟩ ∧
    Settled [(0x79 : Byte), 0x79, 0xFF, 0xFF] ∧
      (start [0x79, 0x79, 0xFF, 0xFF] false).Inv ∧ (start [0x79, 0x79, 0xFF, 0xFF] false).cfg.Legal := by
  refine ⟨?_, ?_, ?_, ⟨?_, ?_, ?_⟩, ?_⟩ <;> decide +kernel

theorem witness_ScanStepTakesExactlyOneOutcome : (start hb true).Serves ⟨hb, true, []⟩ :=
  start_serves _ _

/-- All four clauses, the last two one byte short of the next phase. -/
theorem witness_WaitsChangeNothing :
    (start [] false).Serves ⟨[], false, []⟩ ∧ (start [0x78] false).Serves ⟨[0x78], false, []⟩ ∧
      (start (xf.take 3) false).Serves ⟨xf.take 3, false, []⟩ ∧
      (xf.take 3).take 2 = Variant.ext.mark ∧ (xf.take 3).length < 2 + Variant.ext.lfs ∧
      (start (xf.take 13) false).Serves ⟨xf.take 13, false, []⟩ ∧
      (xf.take 13).take 2 = Variant.ext.mark ∧ lengthOf .ext (xf.take 13) = some 8 ∧
      (xf.take 13).length < 2 + Variant.ext.lfs + 8 + 2 :=
  ⟨start_serves _ _, start_serves _ _, start_serves _ _, by decide, by decide, start_serves _ _,
    by decide, by decide +kernel, by decide⟩

/-- Both kinds of head: no marker byte, and a half marker before a different byte. -/
theorem witness_SkipDiscardsOneByte :
    (start [0x0D] true).Serves ⟨[0x0D], true, []⟩ ∧ (0x0D : Byte) ≠ 0x78 ∧ (0x0D : Byte) ≠ 0x79 ∧
      (start [0x78, 0x79] false).Serves ⟨[0x78, 0x79], false, []⟩ ∧
      ∃ b1 tail, [(0x79 : Byte)] = b1 :: tail ∧ b1 ≠ 0x78 :=
  ⟨start_serves _ _, by decide, by decide, start_serves _ _, 0x79, [], rfl, by decide⟩

theorem witness_EmitHandsTheSliceToDecode :
    (start (hb ++ [0x79]) true).Serves ⟨hb ++ [0x79], true, []⟩ ∧ hb.take 2 = Variant.std.mark ∧
      lengthOf .std hb = some 5 ∧ hb.length = 2 + Variant.std.lfs + 5 + 2 ∧
      hb.drop (hb.length - 2) = [0x0D, 0x0A] :=
  ⟨start_serves _ _, by decide, by decide, by decide, by decide⟩

theorem witness_DropRemovesThePresumedFrame :
    (start (badStop ++ hb) true).Serves ⟨badStop ++ hb, true, []⟩ ∧
      badStop.take 2 = Variant.std.mark ∧ lengthOf .std badStop = some 3 ∧
      badStop.length = 2 + Variant.std.lfs + 3 + 2 ∧
      badStop.drop (badStop.length - 2) ≠ [0x0D, 0x0A] :=
  ⟨start_serves _ _, by decide, by decide, by decide, by decide⟩

theorem witness_FrameArrivesAtBoundary :
    (start [] true).Serves ⟨[], true, []⟩ ∧ (start [] true).cfg.Legal ∧
      (FrameBody.short [1, 2, 3, 4]).wf 255 = true ∧ (FrameBody.fields 1 [] 2 3).wf 65535 = true :=
  ⟨start_serves _ _, by decide, by decide, by decide⟩

theorem witness_NomarkArrivesAtBoundary :
    (start [] false).Serves ⟨[], false, []⟩ ∧ 1 < (start [] false).cfg.bufCap ∧
      (0x77 : Byte) ≠ 0x78 ∧ (0x77 : Byte) ≠ 0x79 ∧ (0x78 : Byte) ≠ 0x79 :=
  ⟨start_serves _ _, by decide, by decide, by decide, by decide⟩

/-- A slice, garbage that is due, a stop mismatch, a record that is not due, and a result of `DECODE`. -/
theorem witness_RecordRowsEmit :
    ((start (hb ++ [0x79]) true).Serves ⟨hb ++ [0x79], true, []⟩ ∧ IsSlice hb ∧
      ∃ i, isStateless i = false ∧ recordOf i = some (decodeFrame Params.default hb)) ∧
      ((start [0x0D] false).Serves ⟨[0x0D], false, []⟩ ∧ scanOutcome [0x0D] = .skip) ∧
      ((start badStop true).Serves ⟨badStop, true, []⟩ ∧ scanOutcome badStop = .drop 8) ∧
      ((start [0x0D] true).Serves ⟨[0x0D], true, []⟩ ∧ isStateless .recGarbage = false ∧
        recordOf .recGarbage = some (.anomaly .garbage) ∧
        (scanStep Params.default ⟨[0x0D], true, []⟩).out ≠ [] ++ [.anomaly .garbage]) ∧
      isStateless (.recTruncated [0x78]) = true ∧
        recordOf (.recTruncated [0x78]) = some (.framingError .truncated [0x78]) ∧
        decodeFrame Params.default [0x78] = .framingError .truncated [0x78] := by
  refine ⟨⟨start_serves _ _, ⟨.std, 5, by constructor <;> decide +kernel, by decide +kernel⟩, ?_⟩,
    ⟨start_serves _ _, by decide⟩, ⟨start_serves _ _, by decide +kernel⟩,
    ⟨start_serves _ _, rfl, rfl, by decide⟩, rfl, rfl, rfl⟩
  exact ⟨.recFrameOk hbFields, rfl, by decide +kernel⟩

/-- The largest payload of each variant. -/
theorem witness_DecodeOfWellFormedFrame :
    (List.replicate 250 (0 : Byte)).length + 5 ≤ Variant.std.maxLength ∧
      ∃ payload : List Byte, payload.length + 5 = Variant.ext.maxLength :=
  ⟨by decide +kernel, List.replicate 65530 0, by rw [List.length_replicate]; rfl⟩

theorem witness_BuiltFramesDecode :
    ([] : List Byte).length + 5 ≤ Variant.std.maxLength ∧
      [(1 : Byte), 2, 3].length + 5 ≤ Variant.ext.maxLength := by decide

theorem witness_SliceDecodesToThreeKinds : IsSlice hb :=
  ⟨.std, 5, by constructor <;> decide +kernel, by decide +kernel⟩

/-- One position of each kind: marker, length, range, checksum, stop. -/
theorem witness_SingleByteCorruptionIsDetected :
    Params.default.crcPoly.getLsbD 0 = true ∧
      decodeFrame Params.default login = .frameOk loginFields ∧
      [login[1]?, login[2]?, login[13]?, login[15]?, login[17]?] =
        [some 0x78, some 0x0D, some 0x01, some 0xDD, some 0x0A] ∧
      Variant.std.protoOffset = 3 ∧ loginFields.length.toNat = 13 := by decide +kernel

theorem witness_EncackAnswersTheAckFrame : State.reset.aq = [] := rfl

/-- A response that stands there, and none. -/
theorem witness_AckStandsOnTheChannel :
    { State.reset with aq := [ack1] }.aq = ack1 :: [] ∧ State.reset.aq.head? ≠ some ack1 := by decide

theorem witness_AckRoundTrip :
    Params.default.Legal ∧ (start [] false).cfg = Params.default ∧ (start [] false).Serves Ctx.reset :=
  ⟨by decide, rfl, start_serves _ _⟩

theorem witness_AckFailsUnderTheOtherRange :
    Params.default.crcRange ≠ fromProtocol.crcRange ∧
      { Params.default with crcRange := .fromLength } = Params.default ∧
      { fromProtocol with crcRange := .fromLength } = Params.default := by decide

theorem witness_ChecksumIsSensitiveToEveryByte :
    Params.default.crcPoly.getLsbD 0 = true ∧ hb[9]? = some 0x0A ∧ (0x01 : Byte) ≠ 0 := by decide

/-- Before the marker, in the length field (its last byte, and its first of two), inside the
checksummed range, and behind it. -/
theorem witness_CrcAccFollowsTheBytes :
    (hb.take 2).length ≤ 2 ∧ lenOf (hb.take 2) = none ∧
      (varOf (hb.take 2) = some .std ∧ lengthOf .std (hb.take 2) = none ∧
        lengthOf .std (hb.take 2 ++ [0x02]) = some 2) ∧
      (varOf (xf.take 2) = some .ext ∧ lengthOf .ext (xf.take 2) = none ∧
        lengthOf .ext (xf.take 2 ++ [0x00]) = none) ∧
      (varOf (hb.take 5) = some .std ∧ lengthOf .std (hb.take 5) = some 5 ∧
        (hb.take 5).length < 2 + Variant.std.lfs + 5 - 2) ∧
      varOf (hb.take 6) = some .std ∧ lengthOf .std (hb.take 6) = some 5 ∧
        ¬ (hb.take 6).length < 2 + Variant.std.lfs + 5 - 2 := by decide +kernel

theorem witness_StepKeepsTheInvariant :
    let s : State := { State.reset with pend := [⟨0, .inBeat 0x100⟩] }
    s.Inv ∧ step s = .next State.reset := by
  refine ⟨⟨?_, ?_, ?_⟩, rfl⟩ <;> decide

/-- Both clauses: a step with a beat, and a scan of a half marker. -/
theorem witness_StepKeepsTheTraces :
    let s : State := { State.reset with pend := [⟨0, .inBeat 0x100⟩] }
    (s.TraceInv ∧ step s = .next State.reset) ∧
      (start [0x78] true).Inv ∧ (encode .scan).isBeat = false ∧ Instr.scan ≠ .rst ∧
        exec .scan (start [0x78] true) = .next (start [0x78] true) := by
  refine ⟨⟨⟨?_, by simp [State.acks, State.reset, State.resetWith]⟩, rfl⟩, ⟨?_, ?_, ?_⟩, ?_, ?_, rfl⟩
  · intro c hc r hr
    have : c = Ctx.reset := by simpa [State.reset, State.resetWith, Params.default] using hc
    rw [this] at hr
    cases hr
  all_goals decide

theorem witness_StepKeepsTheConfiguration : step State.reset = .next State.reset := rfl

/-- A row on a context, a wait, a row while the reset is held, and a stateless row. -/
theorem witness_EveryInstructionsFrame :
    (exec (.clr 0) (start [0x78] true) = .next (start [] false) ∧
        (start [0x78] true).rst = false ∧ (start [0x78] true).ctxs[0]? = some ⟨[0x78], true, []⟩ ∧
        (start [] false).ctxs[0]? = some ⟨[], false, []⟩) ∧
      (exec .waitHalf (start [0x78] true) = .next (start [0x78] true) ∧ Instr.waitHalf ∈ waitRows) ∧
      ((held []).rst = true ∧ exec .scan (held []) = .next (held []) ∧ isStateless .scan = false) ∧
      isStateless (.verify [] 0) = true ∧ exec (.verify [] 0) State.reset =
        .next { State.reset with resp := [.truth true] } := by
  refine ⟨⟨rfl, rfl, rfl, rfl⟩, ⟨rfl, by decide⟩, ⟨rfl, rfl, rfl⟩, rfl, rfl⟩

theorem witness_TracesOnlyGrow :
    (start [0x78] true).rst = false ∧ Instr.clr 0 ≠ .rst ∧
      exec (.clr 0) (start [0x78] true) = .next (start [] false) ∧
      (start [0x78] true).ctxs[0]? = some ⟨[0x78], true, []⟩ :=
  ⟨rfl, by decide, rfl, rfl⟩

theorem witness_EpisodeEndsOnlyBySlice :
    (start [0x78] true).Serves ⟨[0x78], true, []⟩ ∧
      exec (.clr 0) (start [0x78] true) = .next (start [] false) ∧
      (start [] false).ctxs[(start [0x78] true).cur]? = some ⟨[], false, []⟩ :=
  ⟨start_serves _ _, rfl, rfl⟩

theorem witness_DesyncOnlyMutesGarbage :
    feed Params.default [0x00] ⟨[], false, []⟩ = some ⟨[], true, [.anomaly .garbage]⟩ := by
  decide +kernel

/-- Two contexts, cleared one after the other. -/
theorem witness_DifferentContextsCommute :
    let s : State := { State.reset with ctxs := [⟨[0x78], false, []⟩, ⟨[0x79], true, []⟩] }
    s.rst = false ∧ actsOnContext (.clr 0) = true ∧
      exec (.clr 0) { s with cur := 0 } =
        .next { s with cur := 0, ctxs := [⟨[], false, []⟩, ⟨[0x79], true, []⟩] } ∧
      exec (.clr 0) { s with cur := 1, ctxs := [⟨[], false, []⟩, ⟨[0x79], true, []⟩] } =
        .next { s with cur := 1, ctxs := [⟨[], false, []⟩, ⟨[], false, []⟩] } :=
  ⟨rfl, rfl, rfl, rfl⟩

end Sys2Proof.Tests
end

/-! PROOFS: the state (`10_state.md`). Lemmas on the invariant, the phases and the traces, and the
statements of that family. -/

namespace Sys2Proof.Machine

variable {s t : State} {c c' : Ctx} {p : Params} {i : Instr}

/-! ## Inductions over a delivery, and one step of the block -/

/-- A property of contexts that an appended byte and a step of the scan keep is kept by a scan. -/
theorem scan_preserves {P : Ctx → Prop} (step : ∀ c, P c → P (scanStep p c)) (h : P c) :
    P (scan p c) := by
  induction c using scan_induction (p := p) with
  | wait c hw => rwa [scan_wait hw]
  | go c hw ih =>
    rw [scan_go hw]
    exact ih (step c h)

/-- A `PUSH` that completes is the scan of the buffer with the byte appended. -/
theorem push_next {d : Byte} (h : push p d c = some c') : c' = scan p (c.memAppend [d]) := by
  unfold push at h
  split at h
  · simpa using h.symm
  · cases h

/-- A delivery of one more byte completes if the `PUSH` of that byte and the rest complete. -/
theorem feed_cons_next {d : Byte} {ds : List Byte} (h : feed p (d :: ds) c = some c') :
    ∃ c1, push p d c = some c1 ∧ feed p ds c1 = some c' :=
  Option.bind_eq_some_iff.mp h

/-- Induction along a delivery: a property that each `PUSH` keeps is kept by `FEED`. -/
theorem feed_preserves_of_push {P : Ctx → Prop}
    (push_keeps : ∀ d c c', P c → push p d c = some c' → P c') {bytes : List Byte} (h : P c)
    (hf : feed p bytes c = some c') : P c' := by
  induction bytes generalizing c with
  | nil => exact Option.some.inj hf ▸ h
  | cons d ds ih =>
    obtain ⟨c1, hp, hf⟩ := feed_cons_next hf
    exact ih (push_keeps d c c1 h hp) hf

/-- A property of contexts that an appended byte and a step of the scan keep is kept by `FEED`. -/
theorem feed_preserves {P : Ctx → Prop} (append : ∀ c d, P c → P (c.memAppend [d]))
    (step : ∀ c, P c → P (scanStep p c)) {bytes : List Byte} (h : P c)
    (hf : feed p bytes c = some c') : P c' :=
  feed_preserves_of_push
    (fun d c _ hc hp => push_next hp ▸ scan_preserves step (append c d hc)) h hf

/-- Everything a step of the block can do when it answers a next state: wait, release the reset, or
run the instruction of the offer it accepts. -/
theorem step_next (h : step s = .next t) :
    t = s.idle ∨ ∃ o rest, acceptFrom s.rst s.pend = some (o, rest) ∧
      (t = State.releaseRst { s with cur := o.ch, pend := rest } ∨
        ∃ i, decode o.xfer = .ok i ∧ exec i { s with cur := o.ch, pend := rest } = .next t) := by
  unfold step at h
  split at h
  · exact .inl (by simpa using h.symm)
  · next x s' ho =>
    obtain ⟨o, rest, ha, rfl, rfl⟩ := takeOffer_some ho
    refine .inr ⟨o, rest, ha, ?_⟩
    split at h
    · next i hi => exact .inr ⟨i, hi, h⟩
    · exact .inl (by simpa using h.symm)
    · cases h

/-! ## The shapes of R24 -/

/-- A settled buffer is one in which `SCAN_STEP` waits, so a step changes nothing (R24). -/
theorem scanStep_settled (h : Settled c.buf) : scanStep p c = c :=
  scanStep_wait ((settled_iff_wait _).1 h)

/-- An empty buffer is settled. -/
theorem settled_nil : Settled [] := rfl

/-- Whatever a scan starts from, it leaves a settled buffer (R24, R105). -/
theorem settled_scan (p : Params) (c : Ctx) : Settled (scan p c).buf := by
  induction c using scan_induction (p := p) with
  | wait c hw => rw [scan_wait hw]; exact (settled_iff_wait _).2 hw
  | go c hw ih => rwa [scan_go hw]

/-- A `PUSH` leaves a settled buffer (R24, R103). -/
theorem settled_push {d : Byte} (h : push p d c = some c') : Settled c'.buf :=
  push_next h ▸ settled_scan p _

/-- A delivery to a settled buffer leaves a settled one (R24, R104). -/
theorem settled_feed {bytes : List Byte} (hc : Settled c.buf) (h : feed p bytes c = some c') :
    Settled c'.buf :=
  feed_preserves_of_push (P := fun c => Settled c.buf) (fun _ _ _ _ hp => settled_push hp) hc h

/-- A row on a context keeps its buffer settled (R24). -/
theorem settled_ctxEffect (hc : Settled c.buf) (h : ctxEffect p i c = .next c') : Settled c'.buf := by
  obtain ⟨-, rfl⟩ | hf | ⟨-, rfl⟩ | ⟨-, rfl⟩ := ctxEffect_next h
  · exact settled_nil
  · exact settled_feed hc hf
  · exact settled_scan p c
  · rwa [scanStep_settled hc]

/-- A settled buffer of two bytes or more begins with a marker (R24). -/
theorem varOf_of_settled {buf : List Byte} (h : Settled buf) (h2 : 2 ≤ buf.length) :
    ∃ v, varOf buf = some v := by
  match buf with
  | [] => simp at h2
  | [_] => simp at h2
  | b0 :: b1 :: rest =>
    cases hv : varOf (b0 :: b1 :: rest) with
    | none => simp [Settled, phaseOf, hv] at h
    | some v => exact ⟨v, rfl⟩

/-- Where the marker stands, a scan waits exactly as long as `TOTAL` is unknown or not reached
(R110, R111). -/
theorem isWait_iff_of_varOf {buf : List Byte} {v : Variant} (h : varOf buf = some v) :
    (scanOutcome buf).isWait = true ↔ ∀ t, totalOf buf = some t → buf.length < t := by
  have hm := headOf_of_mark (varOf_iff.1 h)
  cases hn : lengthOf v buf with
  | none => simp [scanOutcome, totalOf, h, hm, hn, ScanOutcome.isWait]
  | some n =>
    by_cases hl : buf.length < v.total n
    · simp [scanOutcome, totalOf, h, hm, hn, hl, ScanOutcome.isWait]
    · simp only [scanOutcome, totalOf, h, hm, hn, hl, if_false, Option.bind_some, Option.map_some,
        Option.some.injEq, forall_eq']
      split <;> simp [ScanOutcome.isWait]

/-- No frame is longer than `MAX_TOTAL` (R6, R64). -/
theorem totalOf_le {buf : List Byte} {t : Nat} (h : totalOf buf = some t) : t ≤ Config.maxTotal := by
  simp only [totalOf, Option.bind_eq_some_iff, Option.map_eq_some_iff] at h
  obtain ⟨v, -, n, hn, rfl⟩ := h
  have := lengthOf_le hn
  cases v <;>
    simp only [Variant.maxLength, Variant.total, Variant.lfs, Config.lfsStd, Config.lfsExt,
      Config.maxTotal] at * <;> omega

/-- A settled buffer is shorter than the largest frame (R21, R24). -/
theorem length_lt_of_settled {buf : List Byte} (h : Settled buf) : buf.length < Config.maxTotal := by
  by_cases h2 : 2 ≤ buf.length
  · obtain ⟨v, hv⟩ := varOf_of_settled h h2
    have hw := (isWait_iff_of_varOf hv).1 ((settled_iff_wait _).1 h)
    cases ht : totalOf buf with
    | some t => exact Nat.lt_of_lt_of_le (hw t ht) (totalOf_le ht)
    | none =>
      have hn : lengthOf v buf = none := by simpa [totalOf, hv] using ht
      have := lengthOf_none hn
      cases v <;> simp only [Variant.lfs, Config.lfsStd, Config.lfsExt, Config.maxTotal] at * <;> omega
  · simp only [Config.maxTotal]
    omega

/-- Under legal parameters a settled buffer is not full (R24, R28). -/
theorem length_lt_bufCap {buf : List Byte} (hp : p.Legal) (h : Settled buf) :
    buf.length < p.bufCap := by
  obtain ⟨-, hcap, -⟩ := hp
  exact Nat.lt_of_lt_of_le (length_lt_of_settled h) hcap

/-- Under legal parameters a settled buffer has room for a byte (R24, R103). -/
theorem push_settled_completes (hp : p.Legal) (hc : Settled c.buf) (d : Byte) :
    ∃ c', push p d c = some c' :=
  ⟨_, push_room (length_lt_bufCap hp hc)⟩

/-- Under legal parameters a delivery to a settled buffer completes (R24, R104). -/
theorem feed_settled_completes (hp : p.Legal) (hc : Settled c.buf) (bytes : List Byte) :
    ∃ c', feed p bytes c = some c' := by
  induction bytes generalizing c with
  | nil => exact ⟨c, rfl⟩
  | cons d ds ih =>
    obtain ⟨c1, h1⟩ := push_settled_completes hp hc d
    obtain ⟨c', h'⟩ := ih (settled_push h1)
    exact ⟨c', by simp [feed, h1, h']⟩

/-! ## The invariant of the block -/

/-- A state whose contexts are all at their reset values meets the invariant (R33, R200). -/
theorem inv_of_all_reset (hl : s.ctxs.length = s.cfg.nCtx) (h : ∀ c ∈ s.ctxs, c = Ctx.reset) :
    s.Inv :=
  ⟨hl, fun c hc => h c hc ▸ settled_nil, fun _ => h⟩

/-- Every context of a held block is at its reset values. -/
theorem holdReset_all_reset (s : State) : ∀ c ∈ s.holdReset.ctxs, c = Ctx.reset := by simp

/-- The reset state meets the invariant (R33). -/
theorem inv_resetWith (p : Params) : (State.resetWith p).Inv :=
  inv_of_all_reset (by simp [State.resetWith]) (by simp [State.resetWith])

/-- Holding the contexts keeps the invariant (R200). -/
theorem inv_holdReset (h : s.Inv) : s.holdReset.Inv :=
  inv_of_all_reset (by simpa using h.1) (holdReset_all_reset s)

/-- Raising the pin keeps the invariant (R101, R200). -/
theorem inv_raiseRst (h : s.Inv) : s.raiseRst.Inv :=
  inv_of_all_reset (by simpa using h.1) (holdReset_all_reset s)

/-- Once the pin is released nothing is held, and the other clauses do not speak of the pin (R200). -/
theorem inv_releaseRst (h : s.Inv) : s.releaseRst.Inv := by
  obtain ⟨hlen, hset, -⟩ := h
  exact ⟨hlen, hset, fun hr => by simp at hr⟩

/-- Waiting keeps the invariant (R204). -/
theorem inv_idle (h : s.Inv) : s.idle.Inv := by
  unfold State.idle
  split
  · exact inv_holdReset h
  · exact h

/-- The invariant does not speak of the channel and the offers (assumption 4). -/
theorem inv_serving (h : s.Inv) (ch : Nat) (rest : List Offer) :
    State.Inv { s with cur := ch, pend := rest } := h

/-- A context of a state of the invariant is settled. -/
theorem settled_of_mem (h : s.Inv) (hc : c ∈ s.ctxs) : Settled c.buf := by
  obtain ⟨-, hset, -⟩ := h
  exact hset c hc

/-- The served context of a state of the invariant is settled. -/
theorem settled_of_serves (h : s.Inv) (hs : s.Serves c) : Settled c.buf :=
  settled_of_mem h (List.mem_of_getElem? hs.2)

/-- While `rst` is 0, a settled context may be put where any context stood. -/
theorem inv_setCtx (h : s.Inv) (hr : s.rst = false) (hc : Settled c.buf) : (s.setCtx c).Inv := by
  refine ⟨by simpa using h.1, fun x hx => ?_, fun hr' => by simp [hr] at hr'⟩
  obtain hx | rfl := List.mem_or_eq_of_mem_set hx
  · exact settled_of_mem h hx
  · exact hc

/-- Every instruction keeps the invariant. -/
theorem inv_exec (h : s.Inv) (he : exec i s = .next t) : t.Inv := by
  obtain ⟨-, rfl⟩ | ⟨-, aq, resp, rfl, -⟩ | ⟨-, -, rfl⟩ | ⟨-, c, c', hs, hf, rfl⟩ := exec_next he
  · exact inv_raiseRst h
  · exact h
  · exact inv_holdReset h
  · exact inv_setCtx h hs.1 (settled_ctxEffect (settled_of_serves h hs) hf)

/-- Settles O52: a step waits, releases the reset or runs an instruction, and each of them keeps the
invariant. -/
theorem stepKeepsTheInvariant : Obligations.StepKeepsTheInvariant := by
  intro s t h hstep
  obtain rfl | ⟨o, rest, -, rfl | ⟨i, -, he⟩⟩ := step_next hstep
  · exact inv_idle h
  · exact inv_releaseRst (inv_serving h o.ch rest)
  · exact inv_exec (inv_serving h o.ch rest) he

/-- At reset no trace holds a record and no acknowledgment was sent (R33). -/
theorem traceInv_resetWith (p : Params) : (State.resetWith p).TraceInv := by
  constructor
  · simp [State.resetWith]
  · simp [State.resetWith, State.acks]

/-- Settles O53: both invariants hold of the reset state, and the machine's is that of the defaults. -/
theorem resetMeetsTheInvariant : Obligations.ResetMeetsTheInvariant :=
  ⟨fun p => ⟨inv_resetWith p, traceInv_resetWith p⟩, rfl⟩

/-! ## The configuration -/

/-- No instruction changes the configuration (R28, R210). -/
theorem exec_cfg (he : exec i s = .next t) : t.cfg = s.cfg := by
  obtain ⟨-, rfl⟩ | ⟨-, aq, resp, rfl, -⟩ | ⟨-, -, rfl⟩ | ⟨-, c, c', -, -, rfl⟩ := exec_next he <;> rfl

/-- Settles O55: waiting and the release leave the parameters, and so does every instruction. -/
theorem stepKeepsTheConfiguration : Obligations.StepKeepsTheConfiguration := by
  intro s t hstep
  obtain rfl | ⟨o, rest, -, rfl | ⟨i, -, he⟩⟩ := step_next hstep
  · exact idle_cfg s
  · rfl
  · exact (exec_cfg he :)

/-! ## Deliveries -/

/-- A `PUSH` is the delivery of its byte (R103, R104). -/
theorem exec_push_eq_deliver (d : Byte) (s : State) : exec (.push d) s = s.deliver [d] := by
  simp [exec, execPush, State.deliver, feed]

/-- Under legal parameters every delivery completes and leaves the invariant (R24, R103, R104). -/
theorem deliver_completes (h : s.Inv) (hp : s.cfg.Legal) (hs : s.Serves c) (bytes : List Byte) :
    ∃ t, s.deliver bytes = .next t ∧ t.Inv := by
  have hc := settled_of_serves h hs
  obtain ⟨c', hf⟩ := feed_settled_completes hp hc bytes
  refine ⟨s.setCtx c', ?_, inv_setCtx h hs.1 (settled_feed hc hf)⟩
  rw [State.deliver, onCtx_served hs.1 hs.2, hf]
  rfl

/-- Settles O18: each of the five rows is the delivery of its bytes. -/
theorem deliveriesAreAccepted : Obligations.DeliveriesAreAccepted := by
  intro s h hp hr hlt
  have key := deliver_completes h hp ⟨hr, List.getElem?_eq_getElem hlt⟩
  exact ⟨fun d => exec_push_eq_deliver d s ▸ key [d], key, fun _ _ _ => key _, fun _ _ _ => key _,
    fun _ _ => key _⟩

/-- `STATUS` of a settled context tells its flag, whether it holds a byte, and how many, for the 17
bits of `LEVEL` hold every size (R29). -/
theorem status_of_settled (h : Settled c.buf) :
    (c.status.desync = 1 ↔ c.desync = true) ∧ (c.status.isPartial = 1 ↔ c.buf ≠ []) ∧
      c.status.level.toNat = c.buf.length := by
  have hl := length_lt_of_settled h
  simp only [Config.maxTotal] at hl
  refine ⟨?_, ?_, ?_⟩
  · cases hd : c.desync <;> simp [Ctx.status, hd]
  · cases hb : c.buf <;> simp [Ctx.status, hb]
  · simp only [Ctx.status, BitVec.toNat_ofNat]
    omega

/-- Settles O25: a settled buffer is shorter than `MAX_TOTAL`, which bounds it in every clause. -/
theorem scanLeavesABoundedShape : Obligations.ScanLeavesABoundedShape := by
  refine ⟨settled_scan, fun buf h => Nat.le_of_lt_succ (length_lt_of_settled h), ?_,
    fun c h => status_of_settled h⟩
  intro s h hp c hc
  exact decide_eq_true (Nat.le_of_lt (length_lt_bufCap hp (settled_of_mem h hc)))

/-! ## `PUSH`, phase by phase (R26) -/

/-- With room, `PUSH` on a served context appends its byte and scans (R103). -/
theorem exec_push_room (hs : s.Serves c) (hl : c.buf.length < s.cfg.bufCap) (d : Byte) :
    exec (.push d) s = .next (s.setCtx (scan s.cfg (c.memAppend [d]))) := by
  rw [exec_push hs, push_room hl]
  rfl

/-- An empty buffer ends the scan (R107). -/
theorem scan_nil (h : c.buf = []) : scan p c = c := scan_wait (by rw [h]; rfl)

/-- A scan goes past a byte that is certainly no marker (R109). -/
theorem scan_noMark (h : headOf c.buf = .noMark) :
    scan p c =
      scan p { buf := c.buf.drop 1, desync := true, out := c.out ++ dueGarbage c.desync } := by
  have ho := scanOutcome_skip h
  rw [scan_go (by rw [ho]; rfl), scanStep, ho, applyOutcome, scanSkip_eq]

/-- Inside an episode no `GARBAGE` is due (R23). -/
@[simp] theorem dueGarbage_true : dueGarbage true = [] := rfl

/-- The scan of a single byte: one that can begin a marker is held, any other is garbage (R108, R109). -/
theorem scan_single {d : Byte} (h : c.buf = [d]) :
    scan p c = if d = 0x78 ∨ d = 0x79 then c
      else { buf := [], desync := true, out := c.out ++ dueGarbage c.desync } := by
  have hi := isMarkByte_iff d
  split
  · next hd => exact scan_wait (by simp [h, scanOutcome, headOf, hi.2 hd, ScanOutcome.isWait])
  · next hd =>
    rw [scan_noMark (by simpa [h, headOf] using mt hi.1 hd), scan_nil (by simp [h])]
    simp [h]

/-- The scan of exactly one presumed frame: the record of `DECODE`, or a stop mismatch (R112 to R114). -/
theorem scan_presumedFrame {v : Variant} {n : Nat} (hm : c.buf.take 2 = v.mark)
    (hn : lengthOf v c.buf = some n) (hl : c.buf.length = v.total n) :
    scan p c = if c.buf.drop (c.buf.length - 2) = [0x0D, 0x0A] then
        { buf := [], desync := false, out := c.out ++ [decodeFrame p c.buf] }
      else { buf := [], desync := true, out := c.out ++ [.anomaly .stopMismatch] } := by
  have ho := scanOutcome_frame hm hn hl []
  rw [List.append_nil] at ho
  split
  · next hd =>
    rw [if_pos hd] at ho
    rw [scan_go (by rw [ho]; rfl), scanStep, ho, applyOutcome, scanEmit_eq, scan_nil (by simp)]
    simp
  · next hd =>
    rw [if_neg hd] at ho
    rw [scan_go (by rw [ho]; rfl), scanStep, ho, applyOutcome, scanDrop_eq, scan_nil (by simp)]
    simp

/-- Settles O13: the appended byte stands alone when the scan begins. -/
theorem pushIntoEmptyBuffer : Obligations.PushIntoEmptyBuffer := by
  intro s c d hs hb hcap
  rw [exec_push_room hs (by simpa [hb] using hcap), scan_single (d := d) (by simp [hb])]
  simp [Ctx.memAppend, hb]

/-- Settles O14: two equal marker bytes are a marker, for which the scan waits; of two different bytes
the first is skipped, and the second is scanned alone. -/
theorem pushAfterHalfMarker : Obligations.PushAfterHalfMarker := by
  intro s c b d hs hb hm hcap
  have hbuf : (c.memAppend [d]).buf = [b, d] := by simp [hb]
  rw [exec_push_room hs (by simpa [hb] using hcap)]
  split
  · next hd =>
    subst hd
    have hw : (scanOutcome (c.memAppend [d]).buf).isWait = true := by
      rw [hbuf]
      rcases hm with rfl | rfl <;> rfl
    rw [scan_wait hw, Ctx.memAppend, hb]
    rfl
  · next hd =>
    have hno : headOf (c.memAppend [d]).buf = .noMark :=
      hbuf ▸ headOf_skip (.inr ⟨hm, d, [], rfl, hd⟩)
    rw [scan_noMark hno, scan_single (d := d) (by simp [hb])]
    split <;> simp [hb]

/-- Settles O15: the marker stays at the head, and the scan waits below `TOTAL`. -/
theorem pushIntoPartialFrame : Obligations.PushIntoPartialFrame := by
  intro s c d hs hset h2 hcap ht
  obtain ⟨v, hv⟩ := varOf_of_settled hset h2
  have hv' : varOf (c.buf ++ [d]) = some v := by
    rw [varOf_iff, List.take_append_of_le_length h2]
    exact varOf_iff.1 hv
  have hw : (scanOutcome (c.memAppend [d]).buf).isWait = true :=
    (isWait_iff_of_varOf hv').2 (by simpa using ht)
  rw [exec_push_room hs hcap, scan_wait hw]
  rfl

/-- Settles O16: the buffer with the byte appended is exactly one presumed frame. -/
theorem pushCompletesFrame : Obligations.PushCompletesFrame := by
  intro s c d hs _ ht hcap
  simp only [totalOf, Option.bind_eq_some_iff, Option.map_eq_some_iff] at ht
  obtain ⟨v, hv, n, hn, hlen⟩ := ht
  have hm := varOf_iff.1 hv
  have hm' : (c.memAppend [d]).buf.take 2 = v.mark := by
    rw [memAppend_buf, List.take_append_of_le_length (length_of_mark hm), hm]
  rw [exec_push_room hs hcap,
    scan_presumedFrame hm' (lengthOf_append hn [d]) (by simpa using hlen.symm)]
  simp

/-! ## Traces and episodes (R23, R27) -/

/-- How a context goes on while nothing clears it: its trace grows, and if an episode was open and is
over, the record of `DECODE` of a slice is among the new records (R23, R27). -/
def Ctx.GoesOn (p : Params) (c c' : Ctx) : Prop :=
  ∃ r, c'.out = c.out ++ r ∧
    (c.desync = true → c'.desync = false → ∃ F, IsSlice F ∧ decodeFrame p F ∈ r)

/-- A context that stays as it is goes on. -/
theorem Ctx.GoesOn.refl (p : Params) (c : Ctx) : c.GoesOn p c :=
  ⟨[], by simp, fun h h' => by simp [h] at h'⟩

/-- Of two stretches in a row, one has ended the episode. -/
theorem Ctx.GoesOn.trans {c1 c2 c3 : Ctx} (h12 : c1.GoesOn p c2) (h23 : c2.GoesOn p c3) :
    c1.GoesOn p c3 := by
  obtain ⟨r, hr, hslice⟩ := h12
  obtain ⟨r', hr', hslice'⟩ := h23
  refine ⟨r ++ r', by rw [hr', hr, List.append_assoc], fun h1 h3 => ?_⟩
  cases h2 : c2.desync with
  | false =>
    obtain ⟨F, hF, hmem⟩ := hslice h1 h2
    exact ⟨F, hF, List.mem_append_left r' hmem⟩
  | true =>
    obtain ⟨F, hF, hmem⟩ := hslice' h2 h3
    exact ⟨F, hF, List.mem_append_right r hmem⟩

/-- The bytes that `EMIT` removes are a slice (R12, R113). -/
theorem isSlice_take {buf : List Byte} {v : Variant} {n : Nat} (hh : headOf buf = .frame v n)
    (hl : v.total n ≤ buf.length) (hs : stopTest buf (v.total n) = true) :
    IsSlice (buf.take (v.total n)) := by
  have h5 := total_pos v n
  have hlen : (buf.take (v.total n)).length = v.total n := by simpa using hl
  have hsplit := List.take_append_drop (v.total n) buf
  obtain ⟨hm, hn⟩ := headOf_frame_iff.1 hh
  have hm' : (buf.take (v.total n)).take 2 = v.mark := by
    rw [List.take_take, Nat.min_eq_left (by omega), hm]
  have hn' : lengthOf v (buf.take (v.total n)) = some n := by
    cases hk : lengthOf v (buf.take (v.total n)) with
    | none =>
      have := lengthOf_none hk
      have : v.total n = 2 + v.lfs + n + 2 := rfl
      omega
    | some k =>
      have := lengthOf_append hk (buf.drop (v.total n))
      rw [hsplit, hn] at this
      exact this.symm
  refine ⟨v, n, ⟨headOf_frame_iff.2 ⟨hm', hn'⟩, hlen⟩, ?_⟩
  rw [hlen, ← stopTest_append (by omega) hlen.ge (buf.drop (v.total n)), hsplit, hs]

/-- Bytes that arrive change neither the flag nor the trace (R22). -/
theorem goesOn_memAppend (p : Params) (c : Ctx) (v : List Byte) : c.GoesOn p (c.memAppend v) :=
  Ctx.GoesOn.refl p c

/-- One step of the scan: only `EMIT` ends an episode, and it emits the record of a slice (R113). -/
theorem goesOn_scanStep (p : Params) (c : Ctx) : c.GoesOn p (scanStep p c) := by
  obtain hw | ⟨ho, -⟩ | ⟨v, n, hh, hl, ⟨ho, hstop⟩ | ⟨ho, -⟩⟩ := scanOutcome_cases c.buf
  · rw [scanStep_wait hw]
    exact .refl p c
  · rw [scanStep, ho, applyOutcome, scanSkip_eq]
    exact ⟨dueGarbage c.desync, rfl, by simp⟩
  · rw [scanStep, ho, applyOutcome, scanEmit_eq]
    exact ⟨_, rfl, fun _ _ => ⟨_, isSlice_take hh hl hstop, by simp⟩⟩
  · rw [scanStep, ho, applyOutcome, scanDrop_eq]
    exact ⟨_, rfl, by simp⟩

/-- A scan is steps, so the context goes on. -/
theorem goesOn_scan (p : Params) (c : Ctx) : c.GoesOn p (scan p c) :=
  scan_preserves (fun c1 h => h.trans (goesOn_scanStep p c1)) (.refl p c)

/-- A delivery is appended bytes and steps, so the context goes on. -/
theorem goesOn_feed {bytes : List Byte} (h : feed p bytes c = some c') : c.GoesOn p c' :=
  feed_preserves (fun c1 d h => h.trans (goesOn_memAppend p c1 [d]))
    (fun c1 h => h.trans (goesOn_scanStep p c1)) (.refl p c) h

/-- A row on a context clears it (`CLR`), or the context goes on. -/
theorem ctxEffect_clr_or_goesOn (h : ctxEffect p i c = .next c') :
    ((∃ x, i = .clr x) ∧ c' = clr c) ∨ c.GoesOn p c' := by
  obtain hclr | hf | ⟨-, rfl⟩ | ⟨-, rfl⟩ := ctxEffect_next h
  · exact .inl hclr
  · exact .inr (goesOn_feed hf)
  · exact .inr (goesOn_scan p c)
  · exact .inr (goesOn_scanStep p c)

/-- A row on a context takes no record back (R27). -/
theorem ctxEffect_out_prefix (h : ctxEffect p i c = .next c') : c.out <+: c'.out := by
  obtain ⟨-, rfl⟩ | ⟨r, hr, -⟩ := ctxEffect_clr_or_goesOn h
  · exact List.prefix_refl _
  · exact ⟨r, hr.symm⟩

/-- Settles O57: the served context goes on or is cleared, and the others stay as they are. -/
theorem tracesOnlyGrow : Obligations.TracesOnlyGrow := by
  intro i s t hr hi he k c hc
  obtain ⟨rfl, -⟩ | ⟨-, aq, resp, rfl, -⟩ | ⟨-, hr', -⟩ | ⟨-, c0, c0', hs, hf, rfl⟩ := exec_next he
  · exact absurd rfl hi
  · exact ⟨c, hc, List.prefix_refl _⟩
  · simp [hr] at hr'
  · by_cases hk : k = s.cur
    · subst hk
      obtain rfl : c0 = c := Option.some.inj (hs.2.symm.trans hc)
      exact ⟨c0', setCtx_served hc, ctxEffect_out_prefix hf⟩
    · exact ⟨c, by simp [Ne.symm hk, hc], List.prefix_refl _⟩

/-- Settles O58: a context that is not cleared goes on, which needs a slice to end the episode. -/
theorem episodeEndsOnlyBySlice : Obligations.EpisodeEndsOnlyBySlice := by
  intro i s t c c' hs hd he hc' hd'
  obtain ⟨rfl, -⟩ | ⟨-, aq, resp, rfl, -⟩ | ⟨-, hr, -⟩ | ⟨-, c0, c1, hs0, hf, rfl⟩ := exec_next he
  · exact .inl rfl
  · obtain rfl : c = c' := Option.some.inj (hs.2.symm.trans hc')
    simp [hd] at hd'
  · simp [hs.1] at hr
  · obtain rfl : c0 = c := Option.some.inj (hs0.2.symm.trans hs.2)
    obtain rfl : c1 = c' := Option.some.inj ((setCtx_served hs.2).symm.trans hc')
    obtain ⟨hclr, -⟩ | ⟨r, hr, hslice⟩ := ctxEffect_clr_or_goesOn hf
    · exact .inr (.inl hclr)
    · obtain ⟨F, hF, hmem⟩ := hslice hd hd'
      exact .inr (.inr ⟨F, hF, by simpa [hr] using hmem⟩)

/-! ## `desync` mutes `GARBAGE` and does nothing else (R23) -/

/-- The records of a trace other than `GARBAGE`. -/
def withoutGarbage (rs : List Record) : List Record := rs.filter (· ≠ .anomaly .garbage)

@[simp] theorem withoutGarbage_append (a b : List Record) :
    withoutGarbage (a ++ b) = withoutGarbage a ++ withoutGarbage b := List.filter_append a b

@[simp] theorem withoutGarbage_dueGarbage (desync : Bool) : withoutGarbage (dueGarbage desync) = [] := by
  cases desync <;> rfl

/-- Two contexts hold the same bytes, and the records they added to the traces `o1` and `o2` differ at
most in `GARBAGE`. -/
def AlikeSince (o1 o2 : List Record) (c1 c2 : Ctx) : Prop :=
  c2.buf = c1.buf ∧ ∃ r1 r2, c1.out = o1 ++ r1 ∧ c2.out = o2 ++ r2 ∧
    withoutGarbage r1 = withoutGarbage r2

section
variable {o1 o2 : List Record} {c1 c2 : Ctx}

/-- The same bytes arrive in both contexts. -/
theorem alikeSince_memAppend (h : AlikeSince o1 o2 c1 c2) (v : List Byte) :
    AlikeSince o1 o2 (c1.memAppend v) (c2.memAppend v) :=
  ⟨by simp [h.1], h.2⟩

/-- Each context adds records of its own, alike up to `GARBAGE`. -/
theorem alikeSince_emit (h : AlikeSince o1 o2 c1 c2) {a b : List Record}
    (hab : withoutGarbage a = withoutGarbage b) (buf : List Byte) (d1 d2 : Bool) :
    AlikeSince o1 o2 ⟨buf, d1, c1.out ++ a⟩ ⟨buf, d2, c2.out ++ b⟩ := by
  obtain ⟨-, r1, r2, h1, h2, hr⟩ := h
  exact ⟨rfl, r1 ++ a, r2 ++ b, by simp [h1], by simp [h2], by simp [hr, hab]⟩

/-- One step of the scan takes the same outcome in both contexts (R106). -/
theorem alikeSince_scanStep (h : AlikeSince o1 o2 c1 c2) :
    AlikeSince o1 o2 (scanStep p c1) (scanStep p c2) := by
  obtain hw | ⟨ho, -⟩ | ⟨v, n, -, -, ⟨ho, -⟩ | ⟨ho, -⟩⟩ := scanOutcome_cases c1.buf
  · rwa [scanStep_wait hw, scanStep_wait (h.1 ▸ hw)]
  · simp only [scanStep, h.1, ho, applyOutcome, scanSkip_eq]
    exact alikeSince_emit h (by simp) _ _ _
  · simp only [scanStep, h.1, ho, applyOutcome, scanEmit_eq]
    exact alikeSince_emit h rfl _ _ _
  · simp only [scanStep, h.1, ho, applyOutcome, scanDrop_eq]
    exact alikeSince_emit h rfl _ _ _

/-- The scans of both contexts take the same outcomes to the same end (R105). -/
theorem alikeSince_scan (h : AlikeSince o1 o2 c1 c2) :
    AlikeSince o1 o2 (scan p c1) (scan p c2) := by
  induction c1 using scan_induction (p := p) generalizing c2 with
  | wait c1 hw => rwa [scan_wait hw, scan_wait (h.1 ▸ hw)]
  | go c1 hw ih =>
    have hw2 : (scanOutcome c2.buf).isWait = false := by rwa [h.1]
    rw [scan_go hw, scan_go hw2]
    exact ih (alikeSince_scanStep h)

/-- A `PUSH` that the one context accepts the other accepts too. -/
theorem alikeSince_push {d : Byte} {c1' : Ctx} (h : AlikeSince o1 o2 c1 c2)
    (hp : push p d c1 = some c1') : ∃ c2', push p d c2 = some c2' ∧ AlikeSince o1 o2 c1' c2' := by
  have hl : c1.buf.length < p.bufCap := by
    by_contra hl
    simp [push, hl] at hp
  exact ⟨_, push_room (h.1 ▸ hl), push_next hp ▸ alikeSince_scan (alikeSince_memAppend h [d])⟩

/-- A delivery that the one context accepts the other accepts too. -/
theorem alikeSince_feed {bytes : List Byte} {c1' : Ctx} (h : AlikeSince o1 o2 c1 c2)
    (hf : feed p bytes c1 = some c1') :
    ∃ c2', feed p bytes c2 = some c2' ∧ AlikeSince o1 o2 c1' c2' := by
  induction bytes generalizing c1 c2 with
  | nil => exact ⟨c2, rfl, Option.some.inj hf ▸ h⟩
  | cons d ds ih =>
    obtain ⟨m1, hp, hf⟩ := feed_cons_next hf
    obtain ⟨m2, hp2, hm⟩ := alikeSince_push h hp
    obtain ⟨c2', hf2, hc⟩ := ih hm hf
    exact ⟨c2', by simp [feed, hp2, hf2], hc⟩

end

/-- Settles O59: the two contexts begin alike, and every byte keeps them so. -/
theorem desyncOnlyMutesGarbage : Obligations.DesyncOnlyMutesGarbage := by
  intro p bytes buf d1 d2 o1 o2 c1 hf
  have h : AlikeSince o1 o2 ⟨buf, d1, o1⟩ ⟨buf, d2, o2⟩ := ⟨rfl, [], [], by simp, by simp, rfl⟩
  obtain ⟨c2, hf2, hbuf, r1, r2, h1, h2, hr⟩ := alikeSince_feed h hf
  exact ⟨c2, r1, r2, hf2, hbuf, h1, h2, hr⟩

/-! ## The step and the reset values -/

/-- Settles O5: an offer that is not held back is accepted at the head of the queue. -/
theorem stepRunsDecodedInstruction : Obligations.StepRunsDecodedInstruction := by
  intro s o rest i hq hb hi
  have ho : (s.rst && o.xfer.isBeat) = false := by
    cases hr : s.rst with
    | false => rfl
    | true => simpa using hb hr
  simp [step, State.takeOffer, hq, acceptFrom_head ho, hi]

/-- An empty buffer and a closed episode make every reset value of R33. -/
theorem atReset_of_empty (hb : c.buf = []) (hd : c.desync = false) : AtReset c := by
  simp [AtReset, Ctx.status, hb, hd, phaseOf, levelOf, varOf, lfsOf, lenOf, totalOf, crcAccOf]

/-- Settles O9: `RST` leaves `Ctx.reset` everywhere, and `CLR` the same but for the trace. -/
theorem resetValuesAfterRstAndClr : Obligations.ResetValuesAfterRstAndClr := by
  intro s
  refine ⟨⟨s.raiseRst, rfl, rfl, by simp, fun c hc => ?_⟩, fun x c hs => ?_⟩
  · obtain rfl := holdReset_all_reset s c hc
    exact ⟨atReset_of_empty rfl rfl, rfl⟩
  · exact ⟨s.setCtx (clr c), clr c, updateCtx_served hs.1 hs.2, rfl, setCtx_served hs.2,
      atReset_of_empty rfl rfl, rfl⟩

end Sys2Proof.Machine

/-! PROOFS: the memory (`20_memory.md`). Contexts share nothing, so operations on different ones
commute. -/

namespace Sys2Proof.Machine

variable {s t : State} {c c' : Ctx} {i : Instr}

/-- A row on the served context completes where its effect on that context does, and puts the
effect's result back (R51, R190). -/
theorem exec_served (ha : actsOnContext i = true) (hs : s.Serves c)
    (hf : ctxEffect s.cfg i c = .next c') : exec i s = .next (s.setCtx c') := by
  rw [exec_onCtx s ha, onCtx_served hs.1 hs.2, hf]
  rfl

/-- While `rst` is 0, a row on a context that completes has done its effect on the served context,
and nothing else (R51, R190). -/
theorem exec_next_served (he : exec i s = .next t) (ha : actsOnContext i = true)
    (hr : s.rst = false) :
    ∃ c c', s.Serves c ∧ ctxEffect s.cfg i c = .next c' ∧ t = s.setCtx c' := by
  rw [exec_onCtx s ha] at he
  obtain ⟨hr', -⟩ | ⟨c, c', -, hc, hf, ht⟩ := onCtx_next he
  · simp [hr] at hr'
  · exact ⟨c, c', ⟨hr, hc⟩, hf, ht⟩

/-- Settles O60: neither row reads or writes the context of the other, and writes at two different
indices commute. -/
theorem differentContextsCommute : Obligations.DifferentContextsCommute := by
  intro s t1 t2 j k a b hjk hr ha hb h1 h2
  obtain ⟨cj, cj', ⟨-, hj⟩, hfa, rfl⟩ := exec_next_served h1 ha hr
  obtain ⟨ck, ck', ⟨-, hk⟩, hfb, rfl⟩ := exec_next_served h2 hb hr
  have hk' : s.ctxs[k]? = some ck := by simpa [hjk] using hk
  have hj' : (s.ctxs.set k ck')[j]? = some cj := by simpa [hjk.symm] using hj
  refine ⟨_, _, exec_served (s := { s with cur := k }) hb ⟨hr, hk'⟩ hfb,
    exec_served (s := { s with cur := j, ctxs := s.ctxs.set k ck' }) ha ⟨hr, hj'⟩ hfa, ?_⟩
  simp [State.setCtx, List.set_comm _ _ hjk]

end Sys2Proof.Machine

/-! PROOFS: the encodings (`30_encoding.md`). Each transfer decodes to its instruction, the bytes of a
frame hold its fields, and the rows of frames, records and acknowledgments do what their bytes say. -/

namespace Sys2Proof.Machine

variable {s : State} {c : Ctx} {p : Params} {i : Instr}

/-! ## The input beats and the reset pin (R75) -/

/-- The `op` field of a beat selects its row, and the reserved row keeps the lower bit of it (R75). -/
theorem decodeBeat_append (op : BitVec 2) (d : Byte) :
    decodeBeat (op ++ d) = if op.getLsbD 1 then .inReserved (op.extractLsb' 0 1 ++ d)
      else if op.getLsbD 0 then .clr d else .push d := by
  have h9 : (op ++ d).getLsbD 9 = op.getLsbD 1 := by rw [BitVec.getLsbD_append]; rfl
  have h8 : (op ++ d).getLsbD 8 = op.getLsbD 0 := by rw [BitVec.getLsbD_append]; rfl
  have hd : (op ++ d).extractLsb' 0 8 = d := BitVec.extractLsb'_append_eq_right
  have hx : (op ++ d).extractLsb' 0 9 = op.extractLsb' 0 1 ++ d := by
    rw [BitVec.extractLsb'_append_eq_ite]
    simp
  simp only [decodeBeat]
  rw [h9, h8, hd, hx]

/-- The beat of the reserved row gives its nine lower bits back (R75). -/
theorem decodeBeat_reserved (x : BitVec 9) : decodeBeat ((1 : BitVec 1) ++ x) = .inReserved x := by
  have h9 : ((1 : BitVec 1) ++ x).getLsbD 9 = true := by rw [BitVec.getLsbD_append]; rfl
  have hx : ((1 : BitVec 1) ++ x).extractLsb' 0 9 = x := BitVec.extractLsb'_append_eq_right
  simp only [decodeBeat]
  rw [h9, hx]
  rfl

/-- No beat is `RST` (R75). -/
theorem decodeBeat_ne_rst (w : BitVec 10) : decodeBeat w ≠ .rst := by
  unfold decodeBeat
  split
  · simp
  · split <;> simp

/-- Settles O2: the four values of the `op` field, and the level of the pin. -/
theorem inputBeatOpcodes : Obligations.InputBeatOpcodes := by
  intro d
  refine ⟨congrArg _ (decodeBeat_append 0b00 d), congrArg _ (decodeBeat_append 0b01 d),
    congrArg _ (decodeBeat_append 0b10 d), congrArg _ (decodeBeat_append 0b11 d), fun w h => ?_, rfl⟩
  exact decodeBeat_ne_rst w (by simpa [decode] using h)

/-! ## The acknowledgment channel (R77) -/

/-- The request word gives its two operands back (R77). -/
theorem decodeRequest_append (p : Byte) (sn : Word16) : decodeRequest (p ++ sn) = .encack p sn := by
  have hp : (p ++ sn).extractLsb' 16 8 = p := BitVec.extractLsb'_append_eq_left
  have hs : (p ++ sn).extractLsb' 0 16 = sn := BitVec.extractLsb'_append_eq_right
  rw [decodeRequest, hp, hs]

/-- The response word with its width as the sum of its parts, so that a field can be cut out (R77). -/
theorem extract_responseWord (p : Byte) (sn c : Word16) (start len : Nat) :
    (responseWord p sn c).extractLsb' start len =
      ((0x787805 : BitVec 24) ++ p ++ sn ++ c ++ (0x0D0A : BitVec 16) :
        BitVec (24 + 8 + 16 + 16 + 16)).extractLsb' start len := rfl

/-- The response word matches the pattern of R77 and gives its three operands back. -/
theorem decodeResponse_responseWord (p : Byte) (sn c : Word16) :
    decodeResponse (responseWord p sn c) = .ok (.ack p sn c) := by
  simp only [decodeResponse, extract_responseWord, BitVec.extractLsb'_append_eq_ite]
  simp

/-- The response word holds the ten bytes of the acknowledgment, the first at the top (R77). -/
theorem responseBytes_responseWord (p : Byte) (sn c : Word16) :
    responseBytes (responseWord p sn c) = ackFrame p sn c := by
  simp only [responseBytes, List.range_succ, List.range_zero, extract_responseWord,
    BitVec.extractLsb'_append_eq_ite, ackFrame, hi8, lo8]
  simp

/-- Settles O43: the row is the transfer of the response that stands first on `AQ`. -/
theorem ackStandsOnTheChannel : Obligations.AckStandsOnTheChannel := by
  intro s p sn c
  exact ⟨fun rest h => takeFromAq_head h, takeFromAq_other, responseBytes_responseWord p sn c⟩

/-! ## The record tags (R76) -/

/-- The sizes of a `FRAME_OK` record, with `total` as R64 has it (R76). -/
theorem frameFields_wf_iff (f : FrameFields) :
    f.wf = true ↔ f.payload.length + 5 = f.length.toNat ∧
      f.raw.length = f.variant.total f.length.toNat := by
  cases hv : f.variant <;>
    simp [FrameFields.wf, hv, Config.minLength, Variant.total, Variant.lfs, Config.lfsStd,
      Config.lfsExt] <;>
    omega

/-- A `FRAME_OK` tag gives its record back, if the fields have their sizes (R76). -/
theorem decodeRecord_frameOk (f : RecordFields) :
    decodeRecord 0 0 f =
      if f.frameFields.wf then .ok (.recFrameOk f.frameFields) else .error .illFormedRecord := rfl

/-- The tags that are produced (R76). -/
def recordTags : List (BitVec 2 × BitVec 3) :=
  [(0, 0), (1, 0), (2, 1), (2, 2), (2, 3), (2, 4), (2, 5), (3, 1), (3, 2)]

/-- Every produced tag but `FRAME_OK` is a record, whatever fields stand beside it (R76). -/
theorem decodeRecord_produced {rc : BitVec 2} {sub : BitVec 3} (h : (rc, sub) ∈ recordTags)
    (h0 : (rc, sub) ≠ (0, 0)) (f : RecordFields) : ∃ i, decodeRecord rc sub f = .ok i := by
  simp only [recordTags, List.mem_cons, Prod.mk.injEq, List.not_mem_nil, or_false] at h
  obtain ⟨rfl, rfl⟩ | ⟨rfl, rfl⟩ | ⟨rfl, rfl⟩ | ⟨rfl, rfl⟩ | ⟨rfl, rfl⟩ | ⟨rfl, rfl⟩ | ⟨rfl, rfl⟩ |
    ⟨rfl, rfl⟩ | ⟨rfl, rfl⟩ := h
  · exact absurd rfl h0
  all_goals exact ⟨_, rfl⟩

/-- Every other tag is refused (U20). -/
theorem decodeRecord_unknown {rc : BitVec 2} {sub : BitVec 3} (h : (rc, sub) ∉ recordTags)
    (f : RecordFields) : decodeRecord rc sub f = .error (.unknownRecord rc sub) := by
  have tag : ∀ (a : BitVec 2) (b : BitVec 3), (a, b) ∈ recordTags → rc.toNat = a.toNat →
      sub.toNat = b.toNat → False := fun a b hm ha hb => by
    rw [BitVec.eq_of_toNat_eq ha, BitVec.eq_of_toNat_eq hb] at h
    exact h hm
  unfold decodeRecord
  split
  · next ha hb => exact (tag 0 0 (by decide) ha hb).elim
  · next ha hb => exact (tag 1 0 (by decide) ha hb).elim
  · next ha hb => exact (tag 2 1 (by decide) ha hb).elim
  · next ha hb => exact (tag 2 2 (by decide) ha hb).elim
  · next ha hb => exact (tag 2 3 (by decide) ha hb).elim
  · next ha hb => exact (tag 2 4 (by decide) ha hb).elim
  · next ha hb => exact (tag 2 5 (by decide) ha hb).elim
  · next ha hb => exact (tag 3 1 (by decide) ha hb).elim
  · next ha hb => exact (tag 3 2 (by decide) ha hb).elim
  · rfl

/-- Settles O4: the tag is `FRAME_OK`, another produced one, or unknown. -/
theorem recordTagsProduced : Obligations.RecordTagsProduced := by
  intro rc sub f
  change (∃ i, decodeRecord rc sub f = .ok i) ↔ (rc, sub) ∈ recordTags ∧ _
  by_cases hm : (rc, sub) ∈ recordTags
  · by_cases h0 : (rc, sub) = (0, 0)
    · obtain ⟨rfl, rfl⟩ := Prod.mk.inj h0
      have hw := frameFields_wf_iff f.frameFields
      rw [decodeRecord_frameOk]
      split
      · next hf => exact iff_of_true ⟨_, rfl⟩ ⟨hm, fun _ => hw.1 hf⟩
      · next hf => exact iff_of_false (by simp) (fun h => hf (hw.2 (h.2 rfl)))
    · exact iff_of_true (decodeRecord_produced hm h0 f) ⟨hm, fun h => absurd h h0⟩
  · rw [decodeRecord_unknown hm]
    exact iff_of_false (by simp) (fun h => hm h.1)

/-! ## Parts of a byte sequence (R7, R68) -/

section
variable {F a b d : List Byte} {j k : Nat}

/-- A part in the middle of a sequence, at the offsets where it begins and ends, is its slice. -/
theorem slice_of_append (hF : F = a ++ (b ++ d)) (hj : a.length = j) (hk : j + b.length = k) :
    slice F j k = b := by
  subst hF hj hk
  exact slice_append a b d

/-- A two-byte field in the middle of a sequence is read at the offset where it begins. -/
theorem fieldAt_of_append {w : Word16} (hF : F = a ++ (bytes16 w ++ d)) (hj : a.length = j) :
    fieldAt F j = w := by
  subst hF hj
  exact fieldAt_append a d w

/-- A byte in the middle of a sequence is read at the offset where it stands. -/
theorem byteAt_of_append {x : Byte} (hF : F = a ++ x :: d) (hj : a.length = j) :
    byteAt F j = x := by
  subst hF hj
  simp [byteAt]

end

/-! ## Frames on the wire (R60 to R71) -/

/-- The header of a frame: its marker and its length field (R60). -/
def header (v : Variant) (n : Nat) : List Byte := v.mark ++ v.lengthBytes n

@[simp] theorem header_length (v : Variant) (n : Nat) : (header v n).length = v.protoOffset := by
  simp [header, Variant.protoOffset]

/-- A frame is its header, its body and the two bytes at the stop marker's offset (R60). -/
theorem frameBytes_eq (v : Variant) (body : FrameBody) (e0 e1 : Byte) :
    frameBytes v body e0 e1 = header v body.bytes.length ++ (body.bytes ++ [e0, e1]) := by
  simp [frameBytes, header]

/-- The bytes of a well-formed body spell that body (R67, R71). -/
theorem ofBytes_bytes {cap : Nat} {body : FrameBody} (h : body.wf cap = true) :
    FrameBody.ofBytes body.bytes = body := by
  cases body with
  | short bytes => exact if_pos (short_of_wf h)
  | fields proto payload sn ck =>
    have hlen : (FrameBody.fields proto payload sn ck).bytes.length = payload.length + 5 :=
      bytes_length _
    have hpay : slice (FrameBody.fields proto payload sn ck).bytes 1 (payload.length + 5 - 4) = payload :=
      slice_of_append (a := [proto]) (d := bytes16 sn ++ bytes16 ck) (by simp [FrameBody.bytes]) rfl
        (by omega)
    have hsn : fieldAt (FrameBody.fields proto payload sn ck).bytes (payload.length + 5 - 4) = sn :=
      fieldAt_of_append (a := proto :: payload) (d := bytes16 ck) (by simp [FrameBody.bytes]) (by simp)
    have hck : fieldAt (FrameBody.fields proto payload sn ck).bytes (payload.length + 5 - 2) = ck :=
      fieldAt_of_append (a := proto :: (payload ++ bytes16 sn)) (d := []) (by simp [FrameBody.bytes])
        (by simp)
    rw [FrameBody.ofBytes, hlen, if_neg (by simp [Config.minLength]), hpay, hsn, hck]
    rfl

/-- The bytes of a body that fits the length field are not too many for it (R63). -/
theorem bytes_length_le_of_wf {v : Variant} {body : FrameBody} (h : body.wf v.maxLength = true) :
    body.bytes.length ≤ v.maxLength :=
  bytes_length body ▸ size_le_of_wf (by cases v <;> decide) h

/-- A body that fits gives a presumed frame (R12). -/
theorem presumedFrame_frameBytes {v : Variant} {body : FrameBody} (h : body.wf v.maxLength = true)
    (e0 e1 : Byte) : PresumedFrame v body.bytes.length (frameBytes v body e0 e1) :=
  ⟨headOf_frame_iff.2 ⟨frameBytes_mark v body e0 e1,
    frameBytes_lengthOf v body e0 e1 (bytes_length_le_of_wf h)⟩, frameBytes_length v body e0 e1⟩

/-- The bytes of a frame whose body fits are one wire item, that frame (R73). -/
theorem decodeWire_frameBytes {v : Variant} {body : FrameBody} (h : body.wf v.maxLength = true)
    (e0 e1 : Byte) :
    decodeWire (frameBytes v body e0 e1) = (Instr.frame v body e0 e1, []) := by
  obtain ⟨hh, hl⟩ := presumedFrame_frameBytes h e0 e1
  have ht : v.total body.bytes.length = (header v body.bytes.length ++ body.bytes).length + 2 := by
    simp [Variant.total, Variant.protoOffset]
  have hbody : slice (frameBytes v body e0 e1) v.protoOffset (v.protoOffset + body.bytes.length) =
      body.bytes :=
    slice_of_append (frameBytes_eq v body e0 e1) (header_length v _) rfl
  have h0 : byteAt (frameBytes v body e0 e1) (v.total body.bytes.length - 2) = e0 :=
    byteAt_of_append (a := header v body.bytes.length ++ body.bytes) (d := [e1])
      (by simp [frameBytes_eq]) (by omega)
  have h1 : byteAt (frameBytes v body e0 e1) (v.total body.bytes.length - 1) = e1 :=
    byteAt_of_append (a := header v body.bytes.length ++ body.bytes ++ [e0]) (d := [])
      (by simp [frameBytes_eq]) (by simp only [List.length_append, List.length_singleton] at *; omega)
  simp only [decodeWire, hh]
  rw [if_neg (by omega), hbody, ofBytes_bytes h, h0, h1, List.drop_of_length_le (by omega)]

/-- The first form of `FRAME.NOMARK` is a byte that begins no marker (R109). -/
theorem nomarkWf_none_iff (b0 : Byte) : nomarkWf b0 none = true ↔ b0 ≠ 0x78 ∧ b0 ≠ 0x79 := by
  simp [nomarkWf, isMarkByte, Config.markStdByte, Config.markExtByte]

/-- The second form of `FRAME.NOMARK` is a half marker and a different byte (R109). -/
theorem nomarkWf_some_iff (b0 b1 : Byte) :
    nomarkWf b0 (some b1) = true ↔ (b0 = 0x78 ∨ b0 = 0x79) ∧ b1 ≠ b0 := by
  simp [nomarkWf, isMarkByte_iff]

/-- The bytes of `FRAME.NOMARK` are one wire item, that row (R73, R109). -/
theorem decodeWire_nomarkBytes {b0 : Byte} {b1 : Option Byte} (h : nomarkWf b0 b1 = true) :
    decodeWire (nomarkBytes b0 b1) = (.frameNomark b0 b1, []) := by
  cases b1 with
  | none =>
    have hno : headOf [b0] = .noMark :=
      headOf_skip (.inl ((nomarkWf_none_iff b0).1 h))
    have hb : isMarkByte b0 = false := by simpa [nomarkWf] using h
    simp [decodeWire, nomarkBytes, hno, byteAt, hb]
  | some b1 =>
    obtain ⟨hm, hne⟩ := (nomarkWf_some_iff b0 b1).1 h
    have hno : headOf [b0, b1] = .noMark :=
      headOf_skip (.inr ⟨hm, b1, [], rfl, hne⟩)
    simp [decodeWire, nomarkBytes, hno, byteAt, (isMarkByte_iff b0).2 hm]

/-- A delivery that is one wire item decodes to it (R73). -/
theorem decodeDelivery_of_item {bs : List Byte} (h : decodeWire bs = (i, [])) :
    decodeDelivery bs = i := by
  simp [decodeDelivery, h]

/-! ## Decode and encode -/

/-- Settles O1, row by row: the bits of each port give their operands back, a frame's bytes are one
wire item, and a record or a call is carried as it is. -/
theorem decodeOfEncodeIsIdentity : Obligations.DecodeOfEncodeIsIdentity := by
  intro i h
  cases i with
  | push d => exact congrArg _ (decodeBeat_append 0b00 d)
  | clr x => exact congrArg _ (decodeBeat_append 0b01 x)
  | inReserved x => exact congrArg _ (decodeBeat_reserved x)
  | frameStd body e0 e1 =>
    exact congrArg _ (decodeDelivery_of_item (decodeWire_frameBytes (v := .std) h e0 e1))
  | frameExt body e0 e1 =>
    exact congrArg _ (decodeDelivery_of_item (decodeWire_frameBytes (v := .ext) h e0 e1))
  | frameNomark b0 b1 => exact congrArg _ (decodeDelivery_of_item (decodeWire_nomarkBytes h))
  | encack p sn => exact congrArg _ (decodeRequest_append p sn)
  | ack p sn c => exact decodeResponse_responseWord p sn c
  | recFrameOk f => exact (decodeRecord_frameOk f.recordFields).trans (if_pos h)
  | _ => rfl

/-- Settles O3, by running the decoder on each word. -/
theorem sampleWordsDecode : Obligations.SampleWordsDecode :=
  ⟨rfl, rfl, rfl, rfl, rfl, rfl, rfl⟩

/-! ## What a built frame decodes to (R79, R137) -/

section
variable (v : Variant) (proto : Byte) (payload : List Byte) (sn ck : Word16) (e0 e1 : Byte)

/-- A frame with all four fields, taken apart at each of them (R60, R67). -/
theorem frameBytes_fields_eq :
    frameBytes v (.fields proto payload sn ck) e0 e1 =
      header v (payload.length + 5) ++
        proto :: (payload ++ (bytes16 sn ++ (bytes16 ck ++ [e0, e1]))) := by
  have hl : (FrameBody.fields proto payload sn ck).bytes.length = payload.length + 5 := bytes_length _
  rw [frameBytes_eq, hl]
  simp [FrameBody.bytes]

/-- `protocolNumber` stands behind the length field (R67). -/
theorem protocolNumberOf_frameBytes :
    protocolNumberOf v (frameBytes v (.fields proto payload sn ck) e0 e1) = proto :=
  byteAt_of_append (frameBytes_fields_eq v proto payload sn ck e0 e1) (header_length v _)

/-- The payload stands behind `protocolNumber` (R67). -/
theorem payloadOf_frameBytes :
    payloadOf v (payload.length + 5) (frameBytes v (.fields proto payload sn ck) e0 e1) = payload :=
  slice_of_append (a := header v (payload.length + 5) ++ [proto])
    (by rw [frameBytes_fields_eq, List.append_assoc]; rfl) (by simp) (by omega)

/-- `serialNumber` stands behind the payload (R67). -/
theorem serialNumberOf_frameBytes :
    serialNumberOf v (payload.length + 5) (frameBytes v (.fields proto payload sn ck) e0 e1) = sn :=
  fieldAt_of_append (a := header v (payload.length + 5) ++ proto :: payload)
    (by rw [frameBytes_fields_eq, List.append_assoc]; rfl) (by simp; omega)

/-- The checksum stands behind `serialNumber` (R67). -/
theorem checksumOf_frameBytes :
    checksumOf v (payload.length + 5) (frameBytes v (.fields proto payload sn ck) e0 e1) = ck :=
  fieldAt_of_append (a := header v (payload.length + 5) ++ proto :: (payload ++ bytes16 sn))
    (d := [e0, e1]) (by rw [frameBytes_fields_eq]; simp) (by simp; omega)

/-- The checksummed range is spelt by the values of the fields in it (R70). -/
theorem rangeOf_frameBytes (r : CrcRange) :
    rangeOf r v (payload.length + 5) (frameBytes v (.fields proto payload sn ck) e0 e1) =
      rangeBytes r v proto payload sn := by
  cases r with
  | fromLength =>
    exact slice_of_append (a := v.mark) (d := bytes16 ck ++ [e0, e1])
      (by simp [frameBytes_fields_eq, header, rangeBytes, Config.minLength]) rfl
      (by simp [rangeBytes, rangeStart, Variant.protoOffset]; omega)
  | fromProtocol =>
    exact slice_of_append (a := header v (payload.length + 5)) (d := bytes16 ck ++ [e0, e1])
      (by simp [frameBytes_fields_eq, rangeBytes]) (header_length v _)
      (by simp [rangeBytes, rangeStart]; omega)

/-- `DECODE` finds every field in its place (R137). -/
theorem extractFields_frameBytes :
    extractFields v (payload.length + 5) (frameBytes v (.fields proto payload sn ck) e0 e1) =
      { variant := v, length := BitVec.ofNat 16 (payload.length + 5), protocolNumber := proto,
        payload := payload, serialNumber := sn, checksum := ck,
        raw := frameBytes v (.fields proto payload sn ck) e0 e1 } := by
  rw [extractFields, protocolNumberOf_frameBytes, payloadOf_frameBytes, serialNumberOf_frameBytes,
    checksumOf_frameBytes]

/-- Once the length field is complete, the size, the stop marker and the checksum are checked (R131). -/
theorem decodeFrame_of_lengthOf (p : Params) {v : Variant} {F : List Byte} {n : Nat}
    (hm : F.take 2 = v.mark) (hn : lengthOf v F = some n) : decodeFrame p F = checkFrame p v n F := by
  rw [decodeFrame_of_mark p hm, hn]

/-- Of a frame whose framing is right only the checksum is left to check (R131, R137). -/
theorem decodeFrame_frameBytes (p : Params) (h : payload.length + 5 ≤ v.maxLength) :
    decodeFrame p (frameBytes v (.fields proto payload sn ck) 0x0D 0x0A) =
      checkChecksum p v (payload.length + 5) (frameBytes v (.fields proto payload sn ck) 0x0D 0x0A) := by
  have hl : (FrameBody.fields proto payload sn ck).bytes.length = payload.length + 5 := bytes_length _
  rw [decodeFrame_of_lengthOf p (frameBytes_mark v _ _ _) (frameBytes_lengthOf v _ _ _ (hl ▸ h)), hl,
    checkFrame_eq, frameBytes_stop, frameBytes_length, hl]
  simp

/-- Checks 7 and 8 of a frame with all four fields compare its checksum with that of the range
(R137, R138). -/
theorem checkChecksum_frameBytes (p : Params) :
    checkChecksum p v (payload.length + 5) (frameBytes v (.fields proto payload sn ck) e0 e1) =
      if crc16 p (rangeBytes p.crcRange v proto payload sn) = ck then
        .frameOk (extractFields v (payload.length + 5)
          (frameBytes v (.fields proto payload sn ck) e0 e1))
      else .checksumError (frameBytes v (.fields proto payload sn ck) e0 e1) ck
        (crc16 p (rangeBytes p.crcRange v proto payload sn)) := by
  simp only [checkChecksum, rangeOf_frameBytes, checksumOf_frameBytes, verify_iff]

/-- What the builders build is the frame of its fields with a fresh checksum (R79). -/
theorem buildFrame_eq (p : Params) :
    buildFrame p v proto payload sn = frameBytes v
      (.fields proto payload sn (crc16 p (rangeBytes p.crcRange v proto payload sn))) 0x0D 0x0A := by
  rw [frameBytes_fields_eq]
  cases hr : p.crcRange <;>
    simp [buildFrame, hr, rangeBytes, header, Config.minLength, stopMarker, Config.stop0, Config.stop1]

end

/-- Settles O38: the checksum of a built frame is that of its range. -/
theorem builtFramesDecode : Obligations.BuiltFramesDecode := by
  intro p v proto payload sn h
  rw [buildFrame_eq, decodeFrame_frameBytes _ _ _ _ _ _ h, checkChecksum_frameBytes, if_pos rfl,
    extractFields_frameBytes]

/-! ## Frames and other bytes that arrive (R104, R117, R201) -/

/-- A scan that has ended goes on, when more bytes arrive, as if it had begun with them (R117). -/
theorem scan_memAppend (p : Params) (c : Ctx) (more : List Byte) :
    scan p ((scan p c).memAppend more) = scan p (c.memAppend more) := by
  induction c using scan_induction (p := p) with
  | wait c hw => rw [scan_wait hw]
  | go c hw ih =>
    have hw' : (scanOutcome (c.memAppend more).buf).isWait = false :=
      (scanOutcome_append hw more).symm ▸ hw
    rw [scan_go hw, ih, scan_go hw', scanStep_memAppend hw]

/-- A scan never lengthens the buffer (R22). -/
theorem scan_length_le (p : Params) (c : Ctx) : (scan p c).buf.length ≤ c.buf.length :=
  scanLoop_length_le p _ c

/-- A delivery that finds room for all its bytes is one scan of the buffer with them (R104, R117). -/
theorem feed_of_room (hc : Settled c.buf) {bytes : List Byte}
    (hl : c.buf.length + bytes.length ≤ p.bufCap) :
    feed p bytes c = some (scan p (c.memAppend bytes)) := by
  induction bytes generalizing c with
  | nil =>
    have hw : (scanOutcome (c.memAppend []).buf).isWait = true := by
      simpa using (settled_iff_wait _).1 hc
    rw [scan_wait hw]
    simp [feed, Ctx.memAppend]
  | cons d ds ih =>
    have hle := scan_length_le p (c.memAppend [d])
    simp only [List.length_cons, memAppend_buf, List.length_append, List.length_nil] at hl hle
    rw [feed, push_room (by omega), Option.bind_some, ih (settled_scan p _) (by omega),
      scan_memAppend]
    simp [Ctx.memAppend]

/-- Bytes that arrive at a frame boundary are scanned alone (R104, R117). -/
theorem deliver_at_boundary (hs : s.Serves c) (hb : c.buf = []) {bytes : List Byte}
    (hl : bytes.length ≤ s.cfg.bufCap) :
    s.deliver bytes = .next (s.setCtx (scan s.cfg { c with buf := bytes })) := by
  rw [State.deliver, onCtx_served hs.1 hs.2, feed_of_room (hb ▸ settled_nil) (by simpa [hb] using hl),
    Ctx.memAppend, hb]
  rfl

/-- A presumed frame that arrives at a frame boundary is scanned to its record or to a stop mismatch
(R113, R114). -/
theorem deliver_frame_at_boundary (hs : s.Serves c) (hb : c.buf = []) (hp : s.cfg.Legal) {v : Variant}
    {body : FrameBody} (h : body.wf v.maxLength = true) (e0 e1 : Byte) :
    s.deliver (frameBytes v body e0 e1) = .next (s.setCtx
      (if e0 = 0x0D ∧ e1 = 0x0A then
        { buf := [], desync := false, out := c.out ++ [decodeFrame s.cfg (frameBytes v body e0 e1)] }
      else { buf := [], desync := true, out := c.out ++ [.anomaly .stopMismatch] })) := by
  obtain ⟨hh, hl⟩ := presumedFrame_frameBytes h e0 e1
  obtain ⟨hm, hn⟩ := headOf_frame_iff.1 hh
  obtain ⟨-, hcap, -⟩ := hp
  have ht : totalOf (frameBytes v body e0 e1) = some (frameBytes v body e0 e1).length := by
    simp [totalOf, varOf_iff.2 hm, hn, hl]
  rw [deliver_at_boundary hs hb (Nat.le_trans (totalOf_le ht) hcap), scan_presumedFrame hm hn hl,
    frameBytes_stop]
  simp

/-- Settles O33, for both variants at once. -/
theorem frameArrivesAtBoundary : Obligations.FrameArrivesAtBoundary := by
  intro s c body e0 e1 hs hb hp
  exact ⟨fun h => deliver_frame_at_boundary (v := .std) hs hb hp h e0 e1,
    fun h => deliver_frame_at_boundary (v := .ext) hs hb hp h e0 e1⟩

/-- Settles O34: the first byte is skipped, and a second one is scanned alone. -/
theorem nomarkArrivesAtBoundary : Obligations.NomarkArrivesAtBoundary := by
  intro s c b0 hs hb hcap
  refine ⟨fun h0 => ?_, fun b1 hm hne => ?_⟩
  · refine (deliver_at_boundary hs hb (bytes := [b0]) hcap.le).trans ?_
    rw [scan_single rfl, if_neg (by simpa using h0)]
  · refine (deliver_at_boundary hs hb (bytes := [b0, b1]) hcap).trans ?_
    rw [scan_noMark (headOf_skip (.inr ⟨hm, b1, [], rfl, hne⟩)), scan_single (d := b1) rfl]
    split <;> simp

/-- Settles O32: each row is by definition the delivery of its bytes, as `FEED` is. -/
theorem frameRowsAreDeliveries : Obligations.FrameRowsAreDeliveries :=
  fun _ => ⟨fun _ _ _ => rfl, fun _ _ _ => rfl, fun _ _ => rfl⟩

/-! ## The rows of the records (R76, R140, R182) -/

/-- The row of a record does to its context the step of the scan that emits the record (R76). -/
theorem ctxEffect_record {r : Record} (hr : recordOf i = some r) :
    ctxEffect p i = stepEmitting p r := by
  funext c
  unfold ctxEffect
  rw [hr]

/-- The row of a record of the trace is the step of the scan that emits it (R76). -/
theorem exec_traceRecord {r : Record} (hi : isStateless i = false) (hr : recordOf i = some r) :
    exec i s = s.emitRecord r := by
  have ha : actsOnContext i = true := by
    obtain h | rfl | ⟨x, rfl⟩ | h := instr_cases i
    · simp [hi] at h
    · cases hr
    · cases hr
    · exact h
  rw [exec_onCtx s ha, State.emitRecord, ctxEffect_record hr]

/-- The row completes where the step of the scan emits the record (R76, R182). -/
theorem emitRecord_emitted {r : Record} (hs : s.Serves c) (h : (scanStep s.cfg c).out = c.out ++ [r]) :
    s.emitRecord r = .next (s.setCtx (scanStep s.cfg c)) := by
  rw [State.emitRecord, onCtx_served hs.1 hs.2, stepEmitting, if_pos h]
  rfl

/-- The row is refused where the step of the scan does not emit the record (R76, R182). -/
theorem emitRecord_other {r : Record} (hs : s.Serves c) (h : (scanStep s.cfg c).out ≠ c.out ++ [r]) :
    s.emitRecord r = .refused .outcomeNotTaken := by
  rw [State.emitRecord, onCtx_served hs.1 hs.2, stepEmitting, if_neg h]
  rfl

/-- A slice at the head of the buffer is emitted (R113). -/
theorem scanStep_slice {F rest : List Byte} (hF : IsSlice F) (hb : c.buf = F ++ rest) :
    scanStep p c = { buf := rest, desync := false, out := c.out ++ [decodeFrame p F] } := by
  obtain ⟨v, n, ⟨hh, hl⟩, hstop⟩ := hF
  obtain ⟨hm, hn⟩ := headOf_frame_iff.1 hh
  have ho := scanOutcome_frame hm hn hl rest
  rw [if_pos ((stopTest_iff (length_of_mark hm)).1 hstop), ← hb] at ho
  rw [scanStep, ho, applyOutcome, scanEmit_eq, hb]
  simp

/-- A byte that is skipped out of an episode opens one with `GARBAGE` (R109). -/
theorem scanStep_skip (hd : c.desync = false) (ho : scanOutcome c.buf = .skip) :
    scanStep p c =
      { buf := c.buf.drop 1, desync := true, out := c.out ++ [.anomaly .garbage] } := by
  rw [scanStep, ho, applyOutcome, scanSkip_eq, hd]
  rfl

/-- A presumed frame that is dropped leaves `STOP_MISMATCH` (R114). -/
theorem scanStep_drop {total : Nat} (ho : scanOutcome c.buf = .drop total) :
    scanStep p c =
      { buf := c.buf.drop total, desync := true, out := c.out ++ [.anomaly .stopMismatch] } := by
  rw [scanStep, ho, applyOutcome, scanDrop_eq]

/-- The row of a record that only a caller of `DECODE` sees returns it, where `DECODE` does (R140). -/
theorem exec_returnedRecord {sub : FramingSub} {raw : List Byte} (hi : isStateless i = true)
    (hr : recordOf i = some (.framingError sub raw)) :
    exec i s = s.returnRecord raw (.framingError sub raw) := by
  cases i with
  | recTruncated _ => cases hr; rfl
  | recBadStart _ => cases hr; rfl
  | recLengthMismatch _ => cases hr; rfl
  | recBadStop _ => cases hr; rfl
  | recLengthTooShort _ => cases hi
  | _ => cases hr

/-- Settles O35: the five records of a trace are those of one step of the scan, and the other four
those that `DECODE` returns. -/
theorem recordRowsEmit : Obligations.RecordRowsEmit := by
  refine ⟨fun s c hs => ⟨?_, ?_, ?_, ?_⟩, fun s i sub raw hi hr => exec_returnedRecord hi hr⟩
  · intro i F rest hi hb hF hr
    have hstep := scanStep_slice (p := s.cfg) hF hb
    rw [exec_traceRecord hi hr, emitRecord_emitted hs (by rw [hstep]), hstep]
  · intro hd ho
    have hstep := scanStep_skip (p := s.cfg) hd ho
    rw [exec_traceRecord rfl rfl, emitRecord_emitted hs (by rw [hstep]), hstep]
  · intro total ho
    have hstep := scanStep_drop (p := s.cfg) ho
    rw [exec_traceRecord rfl rfl, emitRecord_emitted hs (by rw [hstep]), hstep]
  · intro i r hi hr hne
    rw [exec_traceRecord hi hr, emitRecord_other hs hne]

end Sys2Proof.Machine

/-! PROOFS: the reassembler (`41_reassembler.md`). Deliveries one after the other, the scan as a
sequence of steps, and the rows of its seven outcomes. -/

namespace Sys2Proof.Machine

variable {s : State} {c c' : Ctx} {p : Params} {i : Instr} {buf : List Byte}

/-! ## The other beats (R102, R118) -/

/-- A beat whose upper `op` bit is 1 is the reserved row, whatever its other bits are (R75). -/
theorem decodeBeat_of_upper {w : BitVec 10} (h : w.getLsbD 9 = true) :
    decodeBeat w = .inReserved (w.extractLsb' 0 9) := if_pos h

/-- Settles O20: the reserved row has no transition. -/
theorem reservedBeatIsRefused : Obligations.ReservedBeatIsRefused :=
  fun _ h => ⟨_, congrArg _ (decodeBeat_of_upper h), fun _ => rfl⟩

/-- Settles O10: `CLR` always succeeds on the served context. -/
theorem clrEmptiesItsContext : Obligations.ClrEmptiesItsContext := by
  intro s c x hs
  exact ⟨congrArg _ (decodeBeat_append 0b01 x), updateCtx_served hs.1 hs.2⟩

/-! ## Deliveries one after the other (R104, R116, R117) -/

/-- A delivery that completes has put back what `feed` made of the served context. -/
theorem deliver_some {bytes : List Byte} (hs : s.Serves c) (hf : feed s.cfg bytes c = some c') :
    s.deliver bytes = .next (s.setCtx c') := by
  rw [State.deliver, onCtx_served hs.1 hs.2, hf]
  rfl

/-- A delivery for which there is no room is refused (R103, U15). -/
theorem deliver_none {bytes : List Byte} (hs : s.Serves c) (hf : feed s.cfg bytes c = none) :
    s.deliver bytes = .refused .bufferFull := by
  rw [State.deliver, onCtx_served hs.1 hs.2, hf]
  rfl

/-- Deliveries one after the other answer what one delivery of all their bytes answers, be it
refused or not (R104, R116). -/
theorem execAll_deliveries {is : List Instr}
    (h : ∀ i ∈ is, ∀ s, exec i s = s.deliver (deliveredBytes i)) (hs : s.Serves c) :
    execAll is s = s.deliver (is.flatMap deliveredBytes) := by
  induction is generalizing s c with
  | nil => rw [List.flatMap_nil, deliver_some hs rfl, setCtx_self hs.2, execAll]
  | cons i is ih =>
    obtain ⟨hi, his⟩ := List.forall_mem_cons.mp h
    have happ := feed_append s.cfg (deliveredBytes i) (is.flatMap deliveredBytes) c
    rw [execAll, hi, List.flatMap_cons]
    cases hf : feed s.cfg (deliveredBytes i) c with
    | none =>
      rw [hf, Option.bind_none] at happ
      rw [deliver_none hs hf, deliver_none hs happ]
    | some c1 =>
      rw [hf, Option.bind_some] at happ
      rw [deliver_some hs hf]
      change execAll is (s.setCtx c1) = _
      rw [ih his (serves_setCtx hs)]
      cases hr : feed s.cfg (is.flatMap deliveredBytes) c1 with
      | none => rw [deliver_none hs (happ.trans hr), deliver_none (serves_setCtx hs) hr]
      | some c2 =>
        rw [deliver_some hs (happ.trans hr), deliver_some (serves_setCtx hs) hr, setCtx_setCtx]

/-- Settles O21: each `PUSH` is the delivery of its byte. -/
theorem feedIsItsPushBeats : Obligations.FeedIsItsPushBeats := by
  intro s c bytes hs
  have hd : ∀ i ∈ bytes.map Instr.push, ∀ s, exec i s = s.deliver (deliveredBytes i) :=
    List.forall_mem_map.2 fun d _ => exec_push_eq_deliver d
  rw [execAll_deliveries hd hs, List.flatMap_map]
  simp [deliveredBytes, exec, execFeed]

/-- Settles O22: each `FEED` is the delivery of its chunk. -/
theorem chunkingDoesNotMatter : Obligations.ChunkingDoesNotMatter := by
  intro s c chunks hs
  have hd : ∀ i ∈ chunks.map Instr.feed, ∀ s, exec i s = s.deliver (deliveredBytes i) :=
    List.forall_mem_map.2 fun _ _ _ => rfl
  rw [execAll_deliveries hd hs, List.flatMap_map]
  simp [deliveredBytes, exec, execFeed]

/-- A delivery that completes has done what one scan of the whole of it does (R117). -/
theorem feed_eq_feedWhole {bytes : List Byte} (hc : Settled c.buf) (h : feed p bytes c = some c') :
    c' = feedWhole p bytes c := by
  induction bytes generalizing c with
  | nil =>
    have hnil : c.memAppend [] = c := by simp [Ctx.memAppend]
    rw [feedWhole, hnil, scan_wait ((settled_iff_wait _).1 hc)]
    exact (Option.some.inj h).symm
  | cons d ds ih =>
    obtain ⟨c1, hp, hf⟩ := feed_cons_next h
    have hcons : (c.memAppend [d]).memAppend ds = c.memAppend (d :: ds) := by simp [Ctx.memAppend]
    rw [ih (settled_push hp) hf, push_next hp, feedWhole, feedWhole, scan_memAppend, hcons]

/-- Settles O23: under legal parameters the delivery completes. -/
theorem wholeDeliveryScanAgrees : Obligations.WholeDeliveryScanAgrees := by
  intro p c bytes hp hc
  obtain ⟨c', h⟩ := feed_settled_completes hp hc bytes
  rw [h, feed_eq_feedWhole hc h]

/-! ## A presumed frame that has not arrived whole (R110, R111) -/

/-- `TOTAL` is known exactly where a marker and a complete length field stand at the head (R25). -/
theorem totalOf_iff_headOf {t : Nat} :
    totalOf buf = some t ↔ ∃ v n, headOf buf = .frame v n ∧ v.total n = t := by
  simp only [totalOf, Option.bind_eq_some_iff, Option.map_eq_some_iff, headOf_frame_iff, varOf_iff]
  grind

/-- Below `TOTAL` the scan waits for the body (R111). -/
theorem scanOutcome_waitBody {v : Variant} {n : Nat} (hh : headOf buf = .frame v n)
    (hl : buf.length < v.total n) : scanOutcome buf = .waitBody := by
  simp [scanOutcome, hh, hl]

/-- After a marker the scan waits while the length field is incomplete (R110). -/
theorem scanOutcome_waitHdr {v : Variant} (hm : buf.take 2 = v.mark) (hl : buf.length < 2 + v.lfs) :
    scanOutcome buf = .waitHdr := by
  simp [scanOutcome, headOf_of_mark hm, lengthOf_short hl]

/-- One marker byte alone is held (R108). -/
theorem scanOutcome_waitHalf {b : Byte} (hb : b = 0x78 ∨ b = 0x79) :
    scanOutcome [b] = .waitHalf := by
  simp [scanOutcome, headOf, (isMarkByte_iff b).2 hb]

/-- Settles O19: the scan waits before the bytes and after them. -/
theorem partialFrameWaits : Obligations.PartialFrameWaits := by
  intro s c bytes t hs ht hlen hcap
  obtain ⟨v, n, hh, rfl⟩ := totalOf_iff_headOf.1 ht
  have hset : Settled c.buf :=
    (settled_iff_wait _).2 (by rw [scanOutcome_waitBody hh (by omega)]; rfl)
  have hw : scanOutcome (c.memAppend bytes).buf = .waitBody :=
    scanOutcome_waitBody (headOf_append hh bytes) (by simpa using hlen)
  refine deliver_some hs ?_
  rw [feed_of_room hset hcap.le, scan_wait (by rw [hw]; rfl)]
  rfl

/-! ## The scan as steps (R105, R115) -/

/-- A scan is at most `|buf|` steps, none of them a wait, and ends where the next one would be. -/
theorem scan_eq_iterate (p : Params) (c : Ctx) :
    ∃ k ≤ c.buf.length, scan p c = (scanStep p)^[k] c ∧
      (∀ j < k, (scanOutcome ((scanStep p)^[j] c).buf).isWait = false) ∧
      (scanOutcome ((scanStep p)^[k] c).buf).isWait = true := by
  induction c using scan_induction (p := p) with
  | wait c hw => exact ⟨0, Nat.zero_le _, scan_wait hw, by simp, hw⟩
  | go c hw ih =>
    obtain ⟨k, hk, hscan, hgo, hwait⟩ := ih
    have hshort := scanStep_shortens (p := p) hw
    refine ⟨k + 1, by omega, (scan_go hw).trans hscan, fun j hj => ?_, hwait⟩
    cases j with
    | zero => exact hw
    | succ j => exact hgo j (by omega)

/-- Settles O24: `SCAN` always succeeds on the served context. -/
theorem scanIsStepsUntilAWait : Obligations.ScanIsStepsUntilAWait := by
  intro s c hs
  obtain ⟨k, hk, hscan, hgo, hwait⟩ := scan_eq_iterate s.cfg c
  exact ⟨k, hk, hscan ▸ updateCtx_served hs.1 hs.2, hgo, hwait⟩

/-! ## The rows of the outcomes (R106 to R114) -/

/-- The row of an outcome (R106). -/
def ScanOutcome.row : ScanOutcome → Instr
  | .waitEmpty => .waitEmpty
  | .waitHalf => .waitHalf
  | .skip => .skip
  | .waitHdr => .waitHdr
  | .waitBody => .waitBody
  | .emit _ => .emit
  | .drop _ => .drop

/-- Every outcome has one of the seven rows. -/
theorem row_mem_outcomeRows (o : ScanOutcome) : o.row ∈ outcomeRows := by
  cases o <;> simp [ScanOutcome.row, outcomeRows]

/-- Each of the seven rows is the step of the scan, where the outcome has that row (R106). -/
theorem exec_outcomeRow (h : i ∈ outcomeRows) (s : State) :
    exec i s = s.onCtx (takeOutcome s.cfg fun o => o.row == i) := by
  have key : ∀ {taken : ScanOutcome → Bool}, (∀ o, taken o = (o.row == i)) →
      s.onCtx (takeOutcome s.cfg taken) = s.onCtx (takeOutcome s.cfg fun o => o.row == i) :=
    fun h => by rw [funext h]
  simp only [outcomeRows, List.mem_cons, List.not_mem_nil, or_false] at h
  obtain rfl | rfl | rfl | rfl | rfl | rfl | rfl := h
  all_goals exact key fun o => by cases o <;> rfl

/-- The row of the outcome that `SCAN_STEP` takes completes, and does what `SCAN_STEP` does. -/
theorem exec_row_taken (hs : s.Serves c) {o : ScanOutcome} (ho : scanOutcome c.buf = o) :
    exec o.row s = .next (s.setCtx (scanStep s.cfg c)) := by
  rw [exec_outcomeRow (row_mem_outcomeRows o)]
  exact takeOutcome_taken hs (by simp [ho])

/-- The row of another outcome has no transition (R106). -/
theorem exec_row_other (hs : s.Serves c) (hi : i ∈ outcomeRows) (hne : i ≠ (scanOutcome c.buf).row) :
    exec i s = .refused .outcomeNotTaken := by
  rw [exec_outcomeRow hi]
  exact takeOutcome_other hs (by simpa using hne.symm)

/-- Settles O26: the row is that of the outcome which the buffer decides. -/
theorem scanStepTakesExactlyOneOutcome : Obligations.ScanStepTakesExactlyOneOutcome := by
  intro s c hs
  exact ⟨(scanOutcome c.buf).row, row_mem_outcomeRows _, _, updateCtx_served hs.1 hs.2,
    exec_row_taken hs rfl, fun j hj hne => exec_row_other hs hj hne⟩

/-- The row of a wait, where `SCAN_STEP` takes it, changes nothing. -/
theorem exec_row_wait (hs : s.Serves c) {o : ScanOutcome} (ho : scanOutcome c.buf = o)
    (hw : o.isWait = true) : exec o.row s = .next s := by
  rw [exec_row_taken hs ho, scanStep_wait (ho ▸ hw), setCtx_self hs.2]

/-- Settles O28: under its condition each wait is the outcome that `SCAN_STEP` takes. -/
theorem waitsChangeNothing : Obligations.WaitsChangeNothing := by
  intro s c hs
  refine ⟨fun hb => ?_, fun b hb hm => ?_, fun v hm hl => ?_, fun v n hm hn hl => ?_⟩
  · exact exec_row_wait (o := .waitEmpty) hs (by rw [hb]; rfl) rfl
  · exact exec_row_wait (o := .waitHalf) hs (hb ▸ scanOutcome_waitHalf hm) rfl
  · exact exec_row_wait (o := .waitHdr) hs (scanOutcome_waitHdr hm hl) rfl
  · exact exec_row_wait (o := .waitBody) hs (scanOutcome_waitBody (headOf_frame_iff.2 ⟨hm, hn⟩) hl) rfl

/-- What `SCAN_STEP` does where it skips, inside an episode or not (R109). -/
theorem scanStep_of_skip (ho : scanOutcome c.buf = .skip) :
    scanStep p c =
      { buf := c.buf.drop 1, desync := true, out := c.out ++ dueGarbage c.desync } := by
  rw [scanStep, ho, applyOutcome, scanSkip_eq]

/-- What `SCAN_STEP` does where it emits (R113). -/
theorem scanStep_of_emit {total : Nat} (ho : scanOutcome c.buf = .emit total) :
    scanStep p c =
      { buf := c.buf.drop total, desync := false,
        out := c.out ++ [decodeFrame p (c.buf.take total)] } := by
  rw [scanStep, ho, applyOutcome, scanEmit_eq]

/-- Settles O27: a frame that `EMIT` or `DROP` removes is in the buffer, and has at least 5 bytes. -/
theorem headMovesForward : Obligations.HeadMovesForward := by
  intro p c
  obtain hw | ⟨ho, hl⟩ | ⟨v, n, -, hl, ⟨ho, -⟩ | ⟨ho, -⟩⟩ := scanOutcome_cases c.buf
  · have hstep := scanStep_wait (p := p) hw
    cases ho : scanOutcome c.buf with
    | skip => simp [ho, ScanOutcome.isWait] at hw
    | emit total => simp [ho, ScanOutcome.isWait] at hw
    | drop total => simp [ho, ScanOutcome.isWait] at hw
    | _ => exact hstep
  · rw [ho]
    exact ⟨congrArg Ctx.buf (scanStep_of_skip ho), hl⟩
  · rw [ho]
    exact ⟨congrArg Ctx.buf (scanStep_of_emit ho), total_pos v n, hl⟩
  · rw [ho]
    exact ⟨congrArg Ctx.buf (scanStep_drop ho), total_pos v n, hl⟩

/-- Settles O29: a head that is certainly no marker is skipped. -/
theorem skipDiscardsOneByte : Obligations.SkipDiscardsOneByte := by
  intro s c b0 rest hs hb h
  have ho : scanOutcome c.buf = .skip := scanOutcome_skip (hb ▸ headOf_skip h)
  refine (exec_row_taken (o := .skip) hs ho).trans ?_
  rw [scanStep_of_skip ho, hb]
  rfl

/-- Settles O30: the stop marker of the slice selects `EMIT`. -/
theorem emitHandsTheSliceToDecode : Obligations.EmitHandsTheSliceToDecode := by
  intro s c v n F rest hs hb hm hn hl hstop
  have ho := scanOutcome_frame hm hn hl rest
  rw [if_pos hstop, ← hb] at ho
  refine (exec_row_taken (o := .emit F.length) hs ho).trans ?_
  rw [scanStep_of_emit ho, hb, List.drop_left, List.take_left]

/-- Settles O31: any other bytes in its place select `DROP`. -/
theorem dropRemovesThePresumedFrame : Obligations.DropRemovesThePresumedFrame := by
  intro s c v n F rest hs hb hm hn hl hstop
  have ho := scanOutcome_frame hm hn hl rest
  rw [if_neg hstop, ← hb] at ho
  refine (exec_row_taken (o := .drop F.length) hs ho).trans ?_
  rw [scanStep_drop ho, hb, List.drop_left]

end Sys2Proof.Machine

/-! PROOFS: the codec (`42_codec.md`). What `DECODE` says of the framing, of the fields and of a
changed byte, the acknowledgment frame, and the answers of the pure functions. -/

namespace Sys2Proof.Machine

variable {p : Params} {F : List Byte} {v : Variant} {n : Nat}

/-! ## The framing of a byte sequence (R131 to R136) -/

/-- The framing that each sub-kind of `FRAMING_ERROR` reports (R132 to R136). -/
def FramingFault (F : List Byte) : FramingSub → Prop
  | .truncated => F.length < 2 ∨ ∃ v : Variant, F.take 2 = v.mark ∧ F.length < 2 + v.lfs
  | .badStart => 2 ≤ F.length ∧ F.take 2 ≠ [0x78, 0x78] ∧ F.take 2 ≠ [0x79, 0x79]
  | .lengthMismatch => ∃ (v : Variant) (n : Nat), F.take 2 = v.mark ∧ lengthOf v F = some n ∧
      F.length ≠ v.total n
  | .badStop => ∃ (v : Variant) (n : Nat), F.take 2 = v.mark ∧ lengthOf v F = some n ∧
      F.length = v.total n ∧ F.drop (F.length - 2) ≠ [0x0D, 0x0A]
  | .lengthTooShort => ∃ (v : Variant) (n : Nat), F.take 2 = v.mark ∧ lengthOf v F = some n ∧
      F.length = v.total n ∧ F.drop (F.length - 2) = [0x0D, 0x0A] ∧ n < 5

/-- The framing of a sequence that passes the checks 1 to 6 (R131). -/
structure WellFramed (v : Variant) (n : Nat) (F : List Byte) : Prop where
  mark : F.take 2 = v.mark
  lengthField : lengthOf v F = some n
  size : F.length = v.total n
  stop : F.drop (F.length - 2) = [0x0D, 0x0A]
  least : 5 ≤ n

/-- The size of such a sequence, from the offset of `protocolNumber` on (R64, R67). -/
theorem WellFramed.length_eq (h : WellFramed v n F) : F.length = v.protoOffset + n + 2 := h.size

/-- Such a sequence has its whole header (R62). -/
theorem WellFramed.protoOffset_le (h : WellFramed v n F) : v.protoOffset ≤ F.length := by
  have := h.length_eq
  omega

/-- The length field stands behind the marker (R67). -/
theorem two_le_protoOffset (v : Variant) : 2 ≤ v.protoOffset := Nat.le_add_right 2 v.lfs

/-- Every sequence has a fault in its framing or none (R131, R139). -/
theorem framingFault_or_wellFramed (F : List Byte) :
    (∃ sub, FramingFault F sub) ∨ ∃ v n, WellFramed v n F := by
  obtain h | h | ⟨v, hm⟩ := mark_cases F
  · exact .inl ⟨.truncated, .inl h⟩
  · exact .inl ⟨.badStart, h⟩
  cases hn : lengthOf v F with
  | none => exact .inl ⟨.truncated, .inr ⟨v, hm, lengthOf_none hn⟩⟩
  | some n =>
    by_cases hl : F.length = v.total n
    · by_cases hs : F.drop (F.length - 2) = [0x0D, 0x0A]
      · by_cases h5 : n < 5
        · exact .inl ⟨.lengthTooShort, v, n, hm, hn, hl, hs, h5⟩
        · exact .inr ⟨v, n, hm, hn, hl, hs, by omega⟩
      · exact .inl ⟨.badStop, v, n, hm, hn, hl, hs⟩
    · exact .inl ⟨.lengthMismatch, v, n, hm, hn, hl⟩

/-- A fault in the framing is reported, with the bytes (R132 to R136). -/
theorem decodeFrame_of_framingFault {sub : FramingSub} (h : FramingFault F sub) :
    decodeFrame p F = .framingError sub F := by
  cases sub with
  | truncated =>
    obtain h | ⟨v, hm, hl⟩ := h
    · exact decodeFrame_short p h
    · rw [decodeFrame_of_mark p hm, lengthOf_short hl]
  | badStart => exact decodeFrame_noMark p h
  | lengthMismatch =>
    obtain ⟨v, n, hm, hn, hl⟩ := h
    rw [decodeFrame_of_lengthOf p hm hn, checkFrame_eq, if_pos hl]
  | badStop =>
    obtain ⟨v, n, hm, hn, hl, hs⟩ := h
    rw [decodeFrame_of_lengthOf p hm hn, checkFrame_eq, if_neg (not_not.2 hl), if_pos hs]
  | lengthTooShort =>
    obtain ⟨v, n, hm, hn, hl, hs, h5⟩ := h
    rw [decodeFrame_of_lengthOf p hm hn, checkFrame_eq, if_neg (not_not.2 hl), if_neg (not_not.2 hs),
      if_pos h5]

/-- Without a fault in the framing the checksum is left to check (R131). -/
theorem decodeFrame_of_wellFramed (h : WellFramed v n F) :
    decodeFrame p F = checkChecksum p v n F := by
  rw [decodeFrame_of_lengthOf p h.mark h.lengthField, checkFrame_eq, if_neg (not_not.2 h.size),
    if_neg (not_not.2 h.stop), if_neg (by have := h.least; omega)]

/-- `DECODE` reports a sub-kind exactly where the framing has that fault (R131 to R136). -/
theorem decodeFrame_framingError_iff {sub : FramingSub} :
    decodeFrame p F = .framingError sub F ↔ FramingFault F sub := by
  refine ⟨fun h => ?_, decodeFrame_of_framingFault⟩
  obtain ⟨sub', hf⟩ | ⟨v, n, hw⟩ := framingFault_or_wellFramed F
  · rw [decodeFrame_of_framingFault hf] at h
    cases h
    exact hf
  · rw [decodeFrame_of_wellFramed hw] at h
    exact absurd h (checkChecksum_ne p v n F sub F)

/-- Settles O36: the five sub-kinds are the five faults. -/
theorem framingErrorCauses : Obligations.FramingErrorCauses := fun _ _ =>
  ⟨decodeFrame_framingError_iff (sub := .truncated), decodeFrame_framingError_iff (sub := .badStart),
    decodeFrame_framingError_iff (sub := .lengthMismatch),
    decodeFrame_framingError_iff (sub := .badStop),
    decodeFrame_framingError_iff (sub := .lengthTooShort)⟩

/-! ## The fields and the checksum (R137 to R140) -/

/-- The value of a length field fits the 16 bits of the `length` of a record (R63, R76). -/
theorem toNat_ofNat_of_lengthOf (h : lengthOf v F = some n) : (BitVec.ofNat 16 n).toNat = n := by
  have hmax := lengthOf_le h
  have hcap : v.maxLength ≤ 65535 := by cases v <;> decide
  rw [BitVec.toNat_ofNat]
  omega

/-- The fields that `DECODE` extracts have the sizes of a `FRAME_OK` record (R76, R137). -/
theorem extractFields_wf (h : WellFramed v n F) : (extractFields v n F).wf = true := by
  have h5 := h.least
  have hsize := h.length_eq
  have hn : (extractFields v n F).length.toNat = n := toNat_ofNat_of_lengthOf h.lengthField
  refine (frameFields_wf_iff _).2 ⟨?_, hn.symm ▸ h.size⟩
  rw [hn]
  simp only [extractFields, payloadOf, slice, List.length_take, List.length_drop]
  omega

/-- What checks 7 and 8 answer: whether the checksum field holds `CRC16` of the range (R137, R138). -/
theorem checkChecksum_eq (p : Params) (v : Variant) (n : Nat) (F : List Byte) :
    checkChecksum p v n F =
      if crc16 p (rangeOf p.crcRange v n F) = checksumOf v n F then .frameOk (extractFields v n F)
      else .checksumError F (checksumOf v n F) (crc16 p (rangeOf p.crcRange v n F)) := by
  simp only [checkChecksum, verify_iff]

/-- Settles O37: the fields and the range of such a frame are spelt by their values. -/
theorem decodeOfWellFormedFrame : Obligations.DecodeOfWellFormedFrame := by
  intro p v proto payload sn ck h
  rw [decodeFrame_frameBytes _ _ _ _ _ _ h, checkChecksum_frameBytes, extractFields_frameBytes]
  simp only [eq_comm (a := ck)]

/-- Settles O39: a framing error, or one of the two answers of the checksum. -/
theorem decodeReturnsItsBytes : Obligations.DecodeReturnsItsBytes := by
  intro p F
  obtain ⟨sub, hf⟩ | ⟨v, n, hw⟩ := framingFault_or_wellFramed F
  · exact .inr (.inr ⟨sub, decodeFrame_of_framingFault hf⟩)
  · rw [decodeFrame_of_wellFramed hw, checkChecksum_eq]
    split
    · exact .inl ⟨_, rfl, rfl, extractFields_wf hw⟩
    · next hne => exact .inr (.inl ⟨_, _, rfl, Ne.symm hne⟩)

/-- Settles O40: a slice passes every check before that of the least length. -/
theorem sliceDecodesToThreeKinds : Obligations.SliceDecodesToThreeKinds := by
  rintro p F ⟨v, n, ⟨hh, hl⟩, hstop⟩
  obtain ⟨hm, hn⟩ := headOf_frame_iff.1 hh
  have hs := (stopTest_iff (length_of_mark hm)).1 hstop
  by_cases h5 : n < 5
  · exact .inr (.inr (decodeFrame_of_framingFault ⟨v, n, hm, hn, hl, hs, h5⟩))
  · rw [decodeFrame_of_wellFramed ⟨hm, hn, hl, hs, by omega⟩, checkChecksum_eq]
    split
    · exact .inl ⟨_, rfl⟩
    · exact .inr (.inl ⟨_, _, rfl⟩)

/-! ## The register loses nothing (R164, R168) -/

/-- A shift tells by its lowest bit whether bit 15 was set, since bit 0 of the polynomial is (R164). -/
theorem crcShift_injective {poly : Word16} (h : poly.getLsbD 0 = true) :
    Function.Injective (crcShift poly) := by
  have low : ∀ x : Word16, (crcShift poly x)[0] = x[15] := fun x => by
    have h0 : poly[0] = true := h
    cases hx : x[15] <;> simp [crcShift, hx, h0]
  have high : ∀ x : Word16, x <<< 1 = crcShift poly x ^^^ (if x[15] then poly else 0) := fun x => by
    cases hx : x[15] <;> simp [crcShift, hx]
  intro x y hxy
  have h15 : x[15] = y[15] := by rw [← low x, ← low y]; simp only [hxy]
  have hshift : x <<< 1 = y <<< 1 := by rw [high x, high y, hxy, h15]
  apply BitVec.eq_of_getElem_eq
  intro i hi
  obtain rfl | hlt : i = 15 ∨ i + 1 < 16 := by omega
  · exact h15
  · simpa [hlt] using congrArg (fun w : Word16 => w.getLsbD (i + 1)) hshift

/-- A byte takes different registers to different values (R164, R168). -/
theorem crcUpdate_injective_register (h : p.crcPoly.getLsbD 0 = true) (b : Byte) :
    Function.Injective (crcUpdate p · b) := fun _ _ hcd =>
  (BitVec.xor_left_inj _).1 (repeatTimes_injective (crcShift_injective h) 8 hcd)

/-- Different bytes take a register to different values (R164, R168). -/
theorem crcUpdate_injective_byte (h : p.crcPoly.getLsbD 0 = true) (c : Word16) :
    Function.Injective (crcUpdate p c) := by
  intro a b hab
  have hin := (BitVec.xor_right_inj _).1 (repeatTimes_injective (crcShift_injective h) 8 hab)
  have hbyte : crcInByte p a = crcInByte p b := by
    apply BitVec.eq_of_getLsbD_eq
    intro i hi
    simpa [show i + 8 < 16 by omega] using congrArg (fun w : Word16 => w.getLsbD (i + 8)) hin
  unfold crcInByte at hbyte
  split at hbyte
  · simpa using congrArg BitVec.reverse hbyte
  · exact hbyte

/-- A sequence takes different registers to different values (R164, R168). -/
theorem crcFold_injective (h : p.crcPoly.getLsbD 0 = true) (bytes : List Byte) :
    Function.Injective (crcFold p · bytes) := by
  induction bytes with
  | nil => exact fun _ _ hcd => hcd
  | cons b bs ih => exact fun _ _ hcd => crcUpdate_injective_register h b (ih hcd)

/-- One changed byte changes the checksum (R168). -/
theorem crc16_set_ne (h : p.crcPoly.getLsbD 0 = true) {m : List Byte} {i : Nat} {a b : Byte}
    (hi : m[i]? = some a) (hne : a ≠ b) : crc16 p (m.set i b) ≠ crc16 p m := by
  obtain ⟨hlt, ha⟩ := List.getElem?_eq_some_iff.1 hi
  have hm : m = m.take i ++ a :: m.drop (i + 1) := by
    rw [← ha, ← List.drop_eq_getElem_cons hlt, List.take_append_drop]
  intro heq
  have hfold := crcFinish_injective p heq
  rw [List.set_eq_take_append_cons_drop, if_pos hlt, crcFold_append] at hfold
  conv at hfold => rhs; rw [hm, crcFold_append]
  exact hne (crcUpdate_injective_byte h _ (crcFold_injective h _ hfold)).symm

/-! ## The acknowledgment (R142 to R144) -/

/-- The range of the acknowledgment is that of a standard frame without payload (R70, R142). -/
theorem ackRange_eq (r : CrcRange) (proto : Byte) (sn : Word16) :
    ackRange r proto sn = rangeBytes r .std proto [] sn := by
  cases r <;> rfl

/-- An acknowledgment is a standard frame without payload, whatever its checksum field holds (R77). -/
theorem ackFrame_eq_frameBytes (proto : Byte) (sn ck : Word16) :
    ackFrame proto sn ck = frameBytes .std (.fields proto [] sn ck) 0x0D 0x0A := rfl

/-- An acknowledgment is what the builder `STD` builds without payload (R79, R142). -/
theorem encAck_eq_buildFrame (p : Params) (proto : Byte) (sn : Word16) :
    encAck p proto sn = buildFrame p .std proto [] sn := by
  rw [encAck, ackFrame_eq_frameBytes, ackRange_eq, buildFrame_eq]

/-- Settles O42: the answer stands alone on `AQ`, so its transfer can follow. -/
theorem encackAnswersTheAckFrame : Obligations.EncackAnswersTheAckFrame := by
  intro s proto sn ck frame
  have hframe : encAck s.cfg proto sn = frame := by
    simp only [frame, ck]
    cases hr : s.cfg.crcRange <;> simp [encAck, ackFrame, ackRange, slice, hr]
  have henc : exec (.encack proto sn) s = .next { s with aq := s.aq ++ [frame] } :=
    hframe ▸ rfl
  refine ⟨henc, encAck_eq_buildFrame s.cfg proto sn ▸ hframe, fun haq => ?_⟩
  have hack := (ackStandsOnTheChannel { s with aq := s.aq ++ [frame] } proto sn ck).1 []
    (by simp [haq, frame])
  simp only [execAll, henc, hack]
  simp [haq, frame]

/-- Settles O44: an acknowledgment is a built frame, which is emitted at a frame boundary. -/
theorem ackRoundTrip : Obligations.AckRoundTrip := by
  intro p proto sn ok
  have hdec : decodeFrame p (encAck p proto sn) = ok := by
    simp only [ok, encAck_eq_buildFrame]
    exact builtFramesDecode p .std proto [] sn (by decide)
  refine ⟨hdec, ?_⟩
  rintro s rfl hp hs
  have hdel := deliver_frame_at_boundary (v := .std)
    (body := .fields proto [] sn (crc16 s.cfg (ackRange s.cfg.crcRange proto sn))) hs rfl hp rfl
    0x0D 0x0A
  rw [if_pos ⟨rfl, rfl⟩, ← ackFrame_eq_frameBytes] at hdel
  exact hdec ▸ hdel

/-- Under the default CRC the length byte of an acknowledgment moves the register, so the two ranges
have different checksums (R144). -/
theorem crc16_ackRange_ne (proto : Byte) (sn : Word16) {a b : CrcRange} (hne : a ≠ b) :
    crc16 Params.default (ackRange a proto sn) ≠ crc16 Params.default (ackRange b proto sn) := by
  have hmoves : crcUpdate Params.default 0xFFFF 0x05 ≠ 0xFFFF := by decide
  have key : crc16 Params.default (ackRange .fromLength proto sn) ≠
      crc16 Params.default (ackRange .fromProtocol proto sn) := fun heq =>
    hmoves (crcFold_injective (p := Params.default) rfl [proto, hi8 sn, lo8 sn]
      (crcFinish_injective _ heq))
  match a, b with
  | .fromLength, .fromProtocol => exact key
  | .fromProtocol, .fromLength => exact key.symm
  | .fromLength, .fromLength => exact absurd rfl hne
  | .fromProtocol, .fromProtocol => exact absurd rfl hne

/-- The checksum of given bytes does not depend on where the range starts (R162). -/
theorem crc16_crcRange (p : Params) (r : CrcRange) : crc16 { p with crcRange := r } = crc16 p := rfl

/-- Settles O45: the two ranges of an acknowledgment have different checksums. -/
theorem ackFailsUnderTheOtherRange : Obligations.AckFailsUnderTheOtherRange := by
  intro built read proto sn hne hb hr
  have hcrcb : crc16 built = crc16 Params.default :=
    (crc16_crcRange built .fromLength).symm.trans (congrArg crc16 hb)
  have hcrcr : crc16 read = crc16 Params.default :=
    (crc16_crcRange read .fromLength).symm.trans (congrArg crc16 hr)
  have hck : crc16 read (rangeBytes read.crcRange .std proto [] sn) ≠
      crc16 built (ackRange built.crcRange proto sn) := by
    rw [hcrcb, hcrcr, ← ackRange_eq]
    exact crc16_ackRange_ne proto sn hne.symm
  rw [encAck, ackFrame_eq_frameBytes, decodeFrame_frameBytes _ _ _ _ _ _ (by decide),
    checkChecksum_frameBytes, if_neg hck]
  exact ⟨_, _, rfl⟩

/-! ## The answers of the pure functions (R130, R160) -/

/-- Settles O46: each of the four is a response, and `VERIFY` answers by equality. -/
theorem pureFunctionsAnswer : Obligations.PureFunctionsAnswer := fun s =>
  ⟨fun _ => respond_next s _, fun _ => respond_next s _, fun _ _ => respond_next s _,
    fun _ _ => respond_next s _⟩

/-! ## One byte of a sequence changed (R146) -/

/-- The byte that arrived first is the high byte (R43). -/
@[simp] theorem hi8_be16 (h l : Byte) : hi8 (be16 h l) = h := BitVec.extractLsb'_append_eq_left

/-- The byte that arrived second is the low byte (R43). -/
@[simp] theorem lo8_be16 (h l : Byte) : lo8 (be16 h l) = l := BitVec.extractLsb'_append_eq_right

/-- A 16-bit value tells both its bytes (R43). -/
theorem be16_inj {h l h' l' : Byte} : be16 h l = be16 h' l' ↔ h = h' ∧ l = l' := by
  refine ⟨fun heq => ⟨?_, ?_⟩, by rintro ⟨rfl, rfl⟩; rfl⟩
  · simpa using congrArg hi8 heq
  · simpa using congrArg lo8 heq

section
variable {i j k : Nat} {a b : Byte} {G : List Byte}

/-- A part of a sequence, from its first byte on (R7). -/
theorem slice_eq_cons (hj : j < F.length) (hk : j < k) :
    slice F j k = byteAt F j :: slice F (j + 1) k := by
  rw [slice, List.drop_eq_getElem_cons hj, show k - j = k - (j + 1) + 1 by omega, List.take_succ_cons]
  simp [slice, byteAt, hj]

/-- An empty part of a sequence (R7). -/
@[simp] theorem slice_self (F : List Byte) (j : Nat) : slice F j j = [] := by simp [slice]

/-- A sequence from an offset on is the part up to its end (R7). -/
theorem slice_to_end (F : List Byte) (j : Nat) : slice F j F.length = F.drop j := by
  rw [slice, List.take_of_length_le (by simp)]

/-- A part that begins behind the changed byte or ends before it is as it was. -/
theorem slice_set_outside (h : i < j ∨ k ≤ i) : slice (F.set i b) j k = slice F j k := by
  rw [slice, List.drop_set]
  split
  · rfl
  · rw [List.take_set_of_le (by omega)]
    rfl

/-- A part that covers the changed byte has it changed. -/
theorem slice_set_inside (hj : j ≤ i) : slice (F.set i b) j k = (slice F j k).set (i - j) b := by
  rw [slice, List.drop_set, if_neg (by omega), List.take_set]
  rfl

/-- The byte at an offset is found in every part that covers it. -/
theorem getElem?_slice (hj : j ≤ i) (hk : i < k) : (slice F j k)[i - j]? = F[i]? := by
  rw [slice, List.getElem?_take_of_lt (by omega), List.getElem?_drop, Nat.add_sub_cancel' hj]

/-- A part that covers the changed byte is another one. -/
theorem slice_set_ne (ha : F[i]? = some a) (hne : a ≠ b) (hj : j ≤ i) (hk : i < k) :
    slice (F.set i b) j k ≠ slice F j k := by
  intro heq
  have hlt : i < F.length := (List.getElem?_eq_some_iff.1 ha).1
  have h := congrArg (·[i - j]?) heq
  simp only [getElem?_slice hj hk, ha, List.getElem?_set_self hlt, Option.some.injEq] at h
  exact hne h.symm

/-- Two sequences hold the same value in a two-byte field exactly if they agree there (R68). -/
theorem fieldAt_eq_iff (hF : j + 2 ≤ F.length) (hG : j + 2 ≤ G.length) :
    fieldAt F j = fieldAt G j ↔ slice F j (j + 2) = slice G j (j + 2) := by
  rw [slice_eq_cons (by omega) (by omega), slice_eq_cons (by omega) (by omega),
    slice_eq_cons (F := G) (by omega) (by omega), slice_eq_cons (F := G) (by omega) (by omega)]
  simp [fieldAt, be16_inj]

/-- The length field of a standard frame is one byte (R62). -/
theorem lengthOf_std (h : 3 ≤ F.length) : lengthOf .std F = some (byteAt F 2).toNat := by
  match F with
  | _ :: _ :: _ :: _ => rfl
  | [] | [_] | [_, _] => simp at h

/-- The length field of an extended-length frame is two bytes (R62). -/
theorem lengthOf_ext (h : 4 ≤ F.length) : lengthOf .ext F = some (fieldAt F 2).toNat := by
  match F with
  | _ :: _ :: _ :: _ :: _ => rfl
  | [] | [_] | [_, _] | [_, _, _] => simp at h

/-- Two sequences have the same length exactly if they agree in the length field (R63). -/
theorem lengthOf_eq_iff (hF : v.protoOffset ≤ F.length) (hG : v.protoOffset ≤ G.length) :
    lengthOf v F = lengthOf v G ↔ slice F 2 v.protoOffset = slice G 2 v.protoOffset := by
  cases v with
  | std =>
    have hF : 3 ≤ F.length := hF
    have hG : 3 ≤ G.length := hG
    change _ ↔ slice F 2 3 = slice G 2 3
    rw [lengthOf_std hF, lengthOf_std hG, slice_eq_cons (by omega) (by omega),
      slice_eq_cons (F := G) (by omega) (by omega)]
    simp [BitVec.toNat_inj]
  | ext =>
    have hF : 4 ≤ F.length := hF
    have hG : 4 ≤ G.length := hG
    rw [lengthOf_ext hF, lengthOf_ext hG, Option.some.injEq, BitVec.toNat_inj]
    exact fieldAt_eq_iff hF hG

/-- Two different bytes begin no marker (R133). -/
theorem badStart_of_ne {x y : Byte} (rest : List Byte) (h : x ≠ y) :
    FramingFault (x :: y :: rest) .badStart := by
  have key : ∀ m : Byte, [x, y] ≠ [m, m] := fun m hm => by
    obtain ⟨rfl, rfl⟩ : x = m ∧ y = m := by simpa using hm
    exact h rfl
  exact ⟨by simp, key 0x78, key 0x79⟩

/-- One changed byte of a marker leaves no marker (R133). -/
theorem badStart_set (hm : F.take 2 = v.mark) (ha : F[i]? = some a) (hne : a ≠ b) (hi : i < 2) :
    FramingFault (F.set i b) .badStart := by
  obtain ⟨rest, rfl⟩ := cons_of_mark hm
  obtain rfl | rfl : i = 0 ∨ i = 1 := by omega
  · cases ha
    exact badStart_of_ne rest hne.symm
  · cases ha
    exact badStart_of_ne rest hne

/-- A changed byte behind the marker leaves the marker (R61). -/
theorem take_two_set (hi : 2 ≤ i) : (F.set i b).take 2 = F.take 2 := List.take_set_of_le hi

/-- A changed byte behind the length field leaves the length (R63). -/
theorem lengthOf_set (h : WellFramed v n F) (hi : v.protoOffset ≤ i) :
    lengthOf v (F.set i b) = some n := by
  have hq := h.protoOffset_le
  rw [← h.lengthField, lengthOf_eq_iff (by rwa [List.length_set]) hq]
  exact slice_set_outside (.inr hi)

/-- One changed byte of the length field gives a length that the size does not fit (R134). -/
theorem lengthMismatch_set (h : WellFramed v n F) (ha : F[i]? = some a) (hne : a ≠ b) (h2 : 2 ≤ i)
    (hi : i < v.protoOffset) : FramingFault (F.set i b) .lengthMismatch := by
  have hq := h.protoOffset_le
  have hq' : v.protoOffset ≤ (F.set i b).length := by rwa [List.length_set]
  cases hm : lengthOf v (F.set i b) with
  | none => exact absurd (lengthOf_none hm) (Nat.not_lt.2 hq')
  | some m =>
    have hne' : m ≠ n := fun hmn => slice_set_ne ha hne h2 hi
      ((lengthOf_eq_iff hq' hq).1 (by rw [hm, h.lengthField, hmn]))
    refine ⟨v, m, (take_two_set h2).trans h.mark, hm, ?_⟩
    rw [List.length_set, h.size]
    simp only [Variant.total]
    omega

/-- A changed byte behind the length field and before the stop marker leaves the framing (R131). -/
theorem wellFramed_set (h : WellFramed v n F) (hq : v.protoOffset ≤ i) (hi : i < v.protoOffset + n) :
    WellFramed v n (F.set i b) := by
  have hsize := h.length_eq
  have h2 := two_le_protoOffset v
  refine ⟨(take_two_set (by omega)).trans h.mark, lengthOf_set h hq, by rw [List.length_set, h.size],
    ?_, h.least⟩
  rw [List.length_set, List.drop_set, if_pos (by omega), h.stop]

/-- One changed byte of the stop marker leaves none (R135). -/
theorem badStop_set (h : WellFramed v n F) (ha : F[i]? = some a) (hne : a ≠ b)
    (hi : v.protoOffset + n ≤ i) : FramingFault (F.set i b) .badStop := by
  have hsize := h.length_eq
  have h2 := two_le_protoOffset v
  have hlt : i < F.length := (List.getElem?_eq_some_iff.1 ha).1
  refine ⟨v, n, (take_two_set (by omega)).trans h.mark, lengthOf_set h (by omega),
    by rw [List.length_set, h.size], ?_⟩
  rw [← slice_to_end, ← h.stop, ← slice_to_end, List.length_set]
  exact slice_set_ne ha hne (by omega) hlt

/-- One changed byte before the checksum field leaves that field (R67). -/
theorem checksumOf_set_before (h : WellFramed v n F) (hi : i < v.protoOffset + n - 2) :
    checksumOf v n (F.set i b) = checksumOf v n F := by
  have hsize := h.length_eq
  have h5 := h.least
  exact (fieldAt_eq_iff (by rw [List.length_set]; omega) (by omega)).2 (slice_set_outside (.inl hi))

/-- One changed byte of the checksum field changes its value (R67). -/
theorem checksumOf_set_ne (h : WellFramed v n F) (ha : F[i]? = some a) (hne : a ≠ b)
    (hj : v.protoOffset + n - 2 ≤ i) (hi : i < v.protoOffset + n) :
    checksumOf v n (F.set i b) ≠ checksumOf v n F := by
  have hsize := h.length_eq
  have h5 := h.least
  rw [checksumOf, checksumOf, Ne, fieldAt_eq_iff (by rw [List.length_set]; omega) (by omega)]
  exact slice_set_ne ha hne hj (by omega)

/-- One changed byte of `protocolNumber`, payload or `serialNumber` changes the checksum of the range,
wherever the range starts (R70, R168). -/
theorem crc16_rangeOf_set_ne (hp : p.crcPoly.getLsbD 0 = true) (ha : F[i]? = some a) (hne : a ≠ b)
    (hj : v.protoOffset ≤ i) (hi : i < v.protoOffset + n - 2) (r : CrcRange) :
    crc16 p (rangeOf r v n (F.set i b)) ≠ crc16 p (rangeOf r v n F) := by
  have hstart : rangeStart r v ≤ i := by
    have h2 := two_le_protoOffset v
    cases r <;> simp only [rangeStart] <;> omega
  rw [rangeOf, slice_set_inside hstart]
  exact crc16_set_ne hp ((getElem?_slice hstart hi).trans ha) hne

end

/-- `FRAME_OK` says that the framing is right, that the fields are those in their places, and that the
checksum field holds `CRC16` of the range (R137). -/
theorem decodeFrame_frameOk {f : FrameFields} (h : decodeFrame p F = .frameOk f) :
    ∃ v n, WellFramed v n F ∧ f = extractFields v n F ∧
      crc16 p (rangeOf p.crcRange v n F) = checksumOf v n F := by
  obtain ⟨sub, hf⟩ | ⟨v, n, hw⟩ := framingFault_or_wellFramed F
  · rw [decodeFrame_of_framingFault hf] at h
    cases h
  · rw [decodeFrame_of_wellFramed hw, checkChecksum_eq] at h
    split at h
    · next hck => exact ⟨v, n, hw, (Record.frameOk.inj h).symm, hck⟩
    · cases h

/-- Settles O41: behind the length field and before the stop marker the framing stays right, and the
checksum field and the checksum of the range no longer agree. -/
theorem singleByteCorruptionIsDetected : Obligations.SingleByteCorruptionIsDetected := by
  intro p F f i a b hp hok ha hne
  obtain ⟨v, n, hw, rfl, hck⟩ := decodeFrame_frameOk hok
  have hn : (extractFields v n F).length.toNat = n := toNat_ofNat_of_lengthOf hw.lengthField
  have hv : (extractFields v n F).variant.protoOffset = v.protoOffset := rfl
  simp only [hn, hv]
  split
  · next h2 => exact decodeFrame_of_framingFault (badStart_set hw.mark ha hne h2)
  split
  · next h2 hq => exact decodeFrame_of_framingFault (lengthMismatch_set hw ha hne (by omega) hq)
  split
  · next hq hj =>
    have hcrc := crc16_rangeOf_set_ne hp ha hne (by omega) hj p.crcRange
    have hsame := checksumOf_set_before hw hj (b := b)
    refine ⟨_, hck ▸ hcrc, ?_⟩
    rw [decodeFrame_of_wellFramed (wellFramed_set hw (by omega) (by omega)), checkChecksum_eq, hsame,
      if_neg (hck ▸ hcrc)]
    rfl
  split
  · next hq hj hi =>
    have hrec := checksumOf_set_ne hw ha hne (by omega) hi
    have hsame : rangeOf p.crcRange v n (F.set i b) = rangeOf p.crcRange v n F :=
      slice_set_outside (.inr (by omega))
    refine ⟨_, hrec, ?_⟩
    rw [decodeFrame_of_wellFramed (wellFramed_set hw (by omega) hi), checkChecksum_eq, hsame, hck,
      if_neg hrec.symm]
    rfl
  · exact decodeFrame_of_framingFault (badStop_set hw ha hne (by omega))

end Sys2Proof.Machine

/-! PROOFS: the checksum (`43_checksum.md`). The sensitivity to one byte, the form without reflection
and the table form, the register as the bytes arrive, and the statements of that family. -/

namespace Sys2Proof.Machine

/-! ## `VERIFY` and one changed byte (R166, R168, R169) -/

/-- `VERIFY` rejects every value but `CRC16` (R166). -/
theorem verify_eq_false_iff (p : Params) (bytes : List Byte) (expected : Word16) :
    verify p bytes expected = false ↔ crc16 p bytes ≠ expected := by
  rw [← Bool.not_eq_true, verify_iff]

/-- Settles O47: a byte xored with a non-zero byte is another byte, which changes the checksum. -/
theorem checksumIsSensitiveToEveryByte : Obligations.ChecksumIsSensitiveToEveryByte := by
  intro p m i a e hp ha he
  have hne : a ≠ a ^^^ e := fun h =>
    he ((BitVec.xor_right_inj a).1 (BitVec.xor_zero.trans h)).symm
  have hcrc := crc16_set_ne hp ha hne
  exact ⟨hcrc, (verify_eq_false_iff _ _ _).2 hcrc⟩

/-- Settles O51: it accepts `CRC16`, and rejects its successor. -/
theorem verifyIsNotConstant : Obligations.VerifyIsNotConstant := fun p bytes =>
  ⟨crc16 p bytes, crc16 p bytes + 1, (verify_iff _ _ _).2 rfl,
    (verify_eq_false_iff _ _ _).2 (by simp)⟩

/-! ## The form without reflection (R163) -/

/-- A map that carries one step to another carries the repeated steps to each other. -/
theorem repeatTimes_semiconj {α β : Type} {f : α → α} {g : β → β} {φ : α → β}
    (h : ∀ a, g (φ a) = φ (f a)) (n : Nat) (a : α) :
    repeatTimes g n (φ a) = φ (repeatTimes f n a) := by
  induction n generalizing a with
  | zero => rfl
  | succ n ih => rw [repeatTimes, repeatTimes, h, ih]

/-- Bit reversal acts on the two terms of a xor apart. -/
theorem reverse_xor {w : Nat} (x y : BitVec w) : (x ^^^ y).reverse = x.reverse ^^^ y.reverse := by
  ext i hi
  simp [BitVec.getElem_reverse, BitVec.getMsbD_xor]

/-- Bit reversal turns a shift left into a shift right. -/
theorem reverse_shiftLeft {w : Nat} (x : BitVec w) (n : Nat) :
    (x <<< n).reverse = x.reverse >>> n := by
  ext i hi
  simp [BitVec.getElem_reverse, BitVec.getLsbD_reverse, Nat.add_comm]

/-- Reversing the bits carries the shift of R164 with the default polynomial to that of R163. -/
theorem crcShiftRight_reverse (c : Word16) :
    crcShiftRight c.reverse = (crcShift 0x1021 c).reverse := by
  have hlow : c.reverse.getLsbD 0 = c.getLsbD 15 := BitVec.getLsbD_reverse
  have hpoly : (0x8408 : Word16) = (0x1021 : Word16).reverse := by decide
  rw [crcShiftRight, crcShift, hlow]
  split
  · rw [reverse_xor, reverse_shiftLeft, hpoly]
  · rw [reverse_shiftLeft]

/-- A byte that enters at the top reversed enters the reversed register at the bottom (R163). -/
theorem reverse_xor_setWidth (c : Word16) (b : Byte) :
    c.reverse ^^^ b.setWidth 16 = (c ^^^ (b.reverse.setWidth 16 <<< 8)).reverse := by
  have hb : (b.reverse.setWidth 16 <<< 8).reverse = b.setWidth 16 := by
    rw [reverse_shiftLeft]
    ext i hi
    have hbit : b.reverse.getMsbD i = b.getLsbD i := by
      rw [← BitVec.getLsbD_reverse, BitVec.reverse_reverse_eq]
    simp [BitVec.getLsbD_reverse, hbit]
  rw [reverse_xor, hb]

/-- Within a byte the reflected register is the reversal after each shift (R163). -/
theorem repeatTimes_crcShiftRight_reverse (c : Word16) (b : Byte) (k : Nat) :
    repeatTimes crcShiftRight k (c.reverse ^^^ b.setWidth 16) =
      (repeatTimes (crcShift 0x1021) k (c ^^^ (b.reverse.setWidth 16 <<< 8))).reverse := by
  rw [reverse_xor_setWidth, repeatTimes_semiconj crcShiftRight_reverse]

/-- The two registers stay each other's reversal along a sequence (R163). -/
theorem foldl_crcUpdateReflected_reverse (c : Word16) (bytes : List Byte) :
    bytes.foldl crcUpdateReflected c.reverse = (crcFold Params.default c bytes).reverse := by
  induction bytes generalizing c with
  | nil => rfl
  | cons b bs ih =>
    have hb : crcUpdateReflected c.reverse b = (crcUpdate Params.default c b).reverse :=
      repeatTimes_crcShiftRight_reverse c b 8
    rw [List.foldl_cons, hb, ih, crcFold_cons]

/-- Settles O48: `CRC_INIT` is its own reversal, and every byte and every shift keep that relation. -/
theorem reflectedFormComputesTheDefault : Obligations.ReflectedFormComputesTheDefault := by
  intro bytes
  have hfold : bytes.foldl crcUpdateReflected 0xFFFF = (crcFold Params.default 0xFFFF bytes).reverse :=
    foldl_crcUpdateReflected_reverse 0xFFFF bytes
  refine ⟨congrArg (· ^^^ 0xFFFF) hfold, hfold, fun b k _ => ?_⟩
  rw [hfold, repeatTimes_crcShiftRight_reverse]

/-! ## The table form (R165) -/

/-- The polynomial enters the shifted register as the lowest bit says (R163). -/
theorem crcShiftRight_eq (r : Word16) :
    crcShiftRight r = r >>> 1 ^^^ (if r.getLsbD 0 then 0x8408 else 0) := by
  unfold crcShiftRight
  split
  · rfl
  · exact BitVec.xor_zero.symm

/-- A shift acts on the two terms of a xor apart (R163). -/
theorem crcShiftRight_xor (x y : Word16) :
    crcShiftRight (x ^^^ y) = crcShiftRight x ^^^ crcShiftRight y := by
  have hpoly : ∀ a b : Bool, (if a ^^ b then (0x8408 : Word16) else 0) =
      (if a then 0x8408 else 0) ^^^ (if b then 0x8408 else 0) := by decide
  rw [crcShiftRight_eq, crcShiftRight_eq, crcShiftRight_eq, BitVec.ushiftRight_xor_distrib,
    BitVec.getLsbD_xor, hpoly]
  ac_rfl

/-- Repeated shifts act on the two terms of a xor apart (R163). -/
theorem repeatTimes_crcShiftRight_xor (n : Nat) (x y : Word16) :
    repeatTimes crcShiftRight n (x ^^^ y) =
      repeatTimes crcShiftRight n x ^^^ repeatTimes crcShiftRight n y := by
  induction n generalizing x y with
  | zero => rfl
  | succ n ih => rw [repeatTimes, crcShiftRight_xor, ih, repeatTimes, repeatTimes]

/-- While the bits that leave the register are 0 the polynomial does not enter (R163). -/
theorem repeatTimes_crcShiftRight_of_low {n : Nat} {x : Word16}
    (h : ∀ i < n, x.getLsbD i = false) : repeatTimes crcShiftRight n x = x >>> n := by
  induction n generalizing x with
  | zero => exact (BitVec.ushiftRight_zero x).symm
  | succ n ih =>
    have hx : crcShiftRight x = x >>> 1 := by
      rw [crcShiftRight, h 0 (Nat.succ_pos n), if_neg Bool.false_ne_true]
    rw [repeatTimes, hx, ih fun i hi => ?_, ← BitVec.shiftRight_add, Nat.add_comm]
    rw [BitVec.getLsbD_ushiftRight, Nat.add_comm, h _ (Nat.succ_lt_succ hi)]

/-- With the byte in it the register is its high byte xor the index of the table (R165). -/
theorem xor_setWidth_eq_high_xor_index (r : Word16) (b : Byte) :
    r ^^^ b.setWidth 16 = (r >>> 8) <<< 8 ^^^ (lo8 r ^^^ b).setWidth 16 := by
  apply BitVec.eq_of_getLsbD_eq
  intro i hi
  obtain h | h := Nat.lt_or_ge i 8
  · simp [h, hi, lo8]
  · simp [Nat.not_lt.2 h, h, hi, lo8]

/-- Eight shifts move the high byte down (R163). -/
theorem repeatTimes_crcShiftRight_high (r : Word16) :
    repeatTimes crcShiftRight 8 ((r >>> 8) <<< 8) = r >>> 8 := by
  rw [repeatTimes_crcShiftRight_of_low fun i hi => by simp [hi]]
  ext i hi
  simpa using BitVec.lt_of_getLsbD (x := r) (i := 8 + i)

/-- Settles O49: of the high byte and the index only the index meets the polynomial. -/
theorem tableAbsorbsAByte : Obligations.TableAbsorbsAByte := by
  intro r b
  rw [crcUpdateReflected, xor_setWidth_eq_high_xor_index, repeatTimes_crcShiftRight_xor,
    repeatTimes_crcShiftRight_high, crcUpdateByTable, crcTable]

/-! ## The register as the bytes arrive (R25, R170) -/

section
variable {p : Params} {buf : List Byte} {v : Variant} {n : Nat}

/-- The range starts behind the marker (R70). -/
theorem two_le_rangeStart (r : CrcRange) (v : Variant) : 2 ≤ rangeStart r v := by
  cases r with
  | fromLength => exact Nat.le_refl 2
  | fromProtocol => exact two_le_protoOffset v

/-- The range starts at `protocolNumber` or before it (R70). -/
theorem rangeStart_le (r : CrcRange) (v : Variant) : rangeStart r v ≤ v.protoOffset := by
  cases r with
  | fromLength => exact two_le_protoOffset v
  | fromProtocol => exact Nat.le_refl _

/-- The header is there once the length field has a value (R63). -/
theorem protoOffset_le_of_lengthOf (hn : lengthOf v buf = some n) : v.protoOffset ≤ buf.length := by
  refine Nat.le_of_not_lt fun hlt => ?_
  rw [lengthOf_short hlt] at hn
  cases hn

/-- An appended byte leaves the variant (R61). -/
theorem varOf_append_byte (hv : varOf buf = some v) (d : Byte) : varOf (buf ++ [d]) = some v := by
  have hm := varOf_iff.1 hv
  rw [varOf_iff, List.take_append_of_le_length (length_of_mark hm), hm]

/-- The register holds nothing while at most the marker is there (R170). -/
theorem crcRegister_of_length_le_two (p : Params) (h : buf.length ≤ 2) :
    crcRegister p buf = p.crcInit := by
  cases hv : varOf buf with
  | none => exact crcRegister_noMark p hv
  | some v =>
    have hstart := two_le_rangeStart p.crcRange v
    have hlfs : 1 ≤ v.lfs := by cases v <;> decide
    rw [crcRegister_incomplete p hv (lengthOf_short (by omega)),
      List.drop_eq_nil_of_le (by omega), crcFold_nil]

/-- With the complete length field the register is that of the range so far (R170). -/
theorem crcRegister_complete (hv : varOf buf = some v) (hn : lengthOf v buf = some n) :
    crcRegister p buf = crcFold p p.crcInit (rangeOf p.crcRange v n buf) := by
  simp [crcRegister, rangeSoFar, hv, hn]

/-- Up to the last byte of the length field the register holds all bytes from the start of the range
on: of a length of at least 2 the range does not end before them (R70, R170). -/
theorem crcRegister_header (hv : varOf buf = some v) (hlen : buf.length ≤ v.protoOffset)
    (h2 : ∀ n, lengthOf v buf = some n → 2 ≤ n) :
    crcRegister p buf = crcFold p p.crcInit (buf.drop (rangeStart p.crcRange v)) := by
  cases hn : lengthOf v buf with
  | none => exact crcRegister_incomplete p hv hn
  | some n =>
    have := h2 n hn
    rw [crcRegister_complete hv hn, rangeOf, slice, List.take_of_length_le]
    rw [List.length_drop]
    omega

/-- A part grows by an appended byte that lies in it, and is not changed by one behind it (R7). -/
theorem slice_append_byte {j k : Nat} (hj : j ≤ buf.length) (d : Byte) :
    slice (buf ++ [d]) j k = if buf.length < k then slice buf j k ++ [d] else slice buf j k := by
  simp only [slice, List.drop_append_of_le_length hj]
  split
  · rw [List.take_of_length_le (by simp; omega), List.take_of_length_le (by simp; omega)]
  · rw [List.take_append_of_le_length (by simp; omega)]

/-- A byte of the length field enters the register where the range counts that field (R70, R170). -/
theorem crcRegister_append_header {d : Byte} (hv : varOf buf = some v) (hn : lengthOf v buf = none)
    (h2 : ∀ n, lengthOf v (buf ++ [d]) = some n → 2 ≤ n) :
    crcRegister p (buf ++ [d]) = match p.crcRange with
      | .fromLength => crcUpdate p (crcRegister p buf) d
      | .fromProtocol => crcRegister p buf := by
  have hlen : buf.length < v.protoOffset := lengthOf_none hn
  have hmark : 2 ≤ buf.length := length_of_mark (varOf_iff.1 hv)
  rw [crcRegister_header (varOf_append_byte hv d) (by simpa using hlen) h2,
    crcRegister_incomplete p hv hn]
  cases p.crcRange with
  | fromLength => simp [rangeStart, List.drop_append_of_le_length hmark, crcFold_append]
  | fromProtocol =>
    rw [rangeStart, List.drop_eq_nil_of_le (by simpa using hlen), List.drop_eq_nil_of_le hlen.le]

/-- Behind the length field a byte of the range enters the register, and any later byte leaves it
(R170). -/
theorem crcRegister_append_body (hv : varOf buf = some v) (hn : lengthOf v buf = some n) (d : Byte) :
    crcRegister p (buf ++ [d]) =
      if buf.length < v.protoOffset + n - 2 then crcUpdate p (crcRegister p buf) d
      else crcRegister p buf := by
  have hstart := (rangeStart_le p.crcRange v).trans (protoOffset_le_of_lengthOf hn)
  rw [crcRegister_complete (varOf_append_byte hv d) (lengthOf_append hn [d]),
    crcRegister_complete hv hn, rangeOf, rangeOf, slice_append_byte hstart]
  split
  · rw [crcFold_append, crcFold_cons, crcFold_nil]
  · rfl

/-- From the complete length field on the view is the register (R25, R170). -/
theorem crcAccOf_eq_crcRegister (hv : varOf buf = some v) (hn : lengthOf v buf = some n) :
    crcAccOf p buf = some (crcRegister p buf) := by
  rw [crcAccOf_complete p hv hn, crcRegister_complete hv hn]

end

/-- Settles O50: the marker, the length field, and what follows it, one after the other. -/
theorem crcAccFollowsTheBytes : Obligations.CrcAccFollowsTheBytes := by
  refine fun p buf => ⟨crcRegister_of_length_le_two p, fun h => by rw [crcAccOf, h]; rfl,
    fun d v hv => ⟨crcRegister_append_header hv, fun n hn => ⟨crcAccOf_eq_crcRegister hv hn, ?_⟩⟩⟩
  rw [crcAccOf_eq_crcRegister (varOf_append_byte hv d) (lengthOf_append hn [d]),
    crcRegister_append_body hv hn]
  rfl

end Sys2Proof.Machine

/-! PROOFS: the exceptions (`60_exceptions.md`). What a step of the scan emits, which records and
acknowledgments a step of the block can add, and the frame of every instruction. -/

namespace Sys2Proof.Machine

variable {s t : State} {c c' : Ctx} {p : Params} {i : Instr}

/-! ## A channel of no context (R197) -/

/-- An operation on the current context faults by name where there is none (R197). -/
theorem onCtx_missing {f : Ctx → CtxResult} (hr : s.rst = false) (hc : s.ctxs[s.cur]? = none) :
    s.onCtx f = .fault .noSuchContext := by
  simp [State.onCtx, hr, hc]

/-- Settles O12: a row on a context is an operation on the current context. -/
theorem missingContextFaults : Obligations.MissingContextFaults := by
  intro s i hr hc ha
  rw [exec_onCtx s ha, onCtx_missing hr hc]

/-! ## The records of one scan (R182, R184) -/

/-- One step of the scan adds nothing to the trace, or one record that the block can produce: an
anomaly, or `DECODE` of a slice (R140, R182). -/
theorem scanStep_out (p : Params) (c : Ctx) :
    (scanStep p c).out = c.out ∨ ∃ r, TraceRecord p r ∧ (scanStep p c).out = c.out ++ [r] := by
  obtain hw | ⟨ho, -⟩ | ⟨v, n, hh, hl, ⟨ho, hstop⟩ | ⟨ho, -⟩⟩ := scanOutcome_cases c.buf
  · exact .inl (by rw [scanStep_wait hw])
  · rw [scanStep_of_skip ho]
    cases c.desync with
    | false => exact .inr ⟨_, .inl ⟨_, rfl⟩, rfl⟩
    | true => exact .inl (List.append_nil _)
  · rw [scanStep_of_emit ho]
    exact .inr ⟨_, .inr ⟨_, isSlice_take hh hl hstop, rfl⟩, rfl⟩
  · rw [scanStep_drop ho]
    exact .inr ⟨_, .inl ⟨_, rfl⟩, rfl⟩

/-- The trace of `c'` is that of `c`, or has one record more (R184). -/
def Ctx.EmitsAtMostOne (c c' : Ctx) : Prop := c'.out = c.out ∨ ∃ r, c'.out = c.out ++ [r]

/-- The garbage due to an episode is at most one record (R23, R109). -/
theorem emitsAtMostOne_dueGarbage {desync : Bool} (h : c'.out = c.out ++ dueGarbage desync) :
    c.EmitsAtMostOne c' := by
  cases desync with
  | false => exact .inr ⟨_, h⟩
  | true => exact .inl (h.trans (List.append_nil _))

/-- The scan of a single byte adds at most the garbage due (R108, R109). -/
theorem emitsAtMostOne_scan_single {d : Byte} (h : c.buf = [d]) : c.EmitsAtMostOne (scan p c) := by
  rw [scan_single h]
  split
  · exact .inl rfl
  · exact emitsAtMostOne_dueGarbage rfl

/-- A single byte between beats is a half marker (R24). -/
theorem mark_of_settled_single {b : Byte} (h : Settled [b]) : b = 0x78 ∨ b = 0x79 := by
  rw [← isMarkByte_iff]
  by_contra hb
  simp [Settled, phaseOf, hb] at h

/-- A certain non-marker byte is skipped, and the byte behind it belongs to the same episode, so at
most one `GARBAGE` is emitted for the two (R23, R109). -/
theorem emitsAtMostOne_scan_noMark_pair {b d : Byte} (hb : c.buf = [b, d])
    (h : headOf c.buf = .noMark) : c.EmitsAtMostOne (scan p c) := by
  refine emitsAtMostOne_dueGarbage (desync := c.desync) ?_
  rw [scan_noMark h, scan_single (d := d) (by simp [hb])]
  split
  · rfl
  · exact List.append_nil _

/-- The scan of exactly one presumed frame emits one record (R112 to R114). -/
theorem emitsAtMostOne_scan_presumedFrame {v : Variant} {n : Nat}
    (hF : PresumedFrame v n c.buf) : c.EmitsAtMostOne (scan p c) := by
  obtain ⟨hh, hl⟩ := hF
  obtain ⟨hm, hn⟩ := headOf_frame_iff.1 hh
  rw [scan_presumedFrame hm hn hl]
  split
  · exact .inr ⟨_, rfl⟩
  · exact .inr ⟨_, rfl⟩

/-- A byte behind a settled marker leaves the scan waiting, or completes exactly one presumed frame
(R26, R111, R112). -/
theorem wait_or_presumedFrame_of_settled {buf : List Byte} (h : Settled buf) (h2 : 2 ≤ buf.length)
    (d : Byte) : (scanOutcome (buf ++ [d])).isWait = true ∨ ∃ v n, PresumedFrame v n (buf ++ [d]) := by
  obtain ⟨v, hv⟩ := varOf_of_settled h h2
  have hv' := varOf_append_byte hv d
  cases hn' : lengthOf v (buf ++ [d]) with
  | none => exact .inl ((isWait_iff_of_varOf hv').2 (by simp [totalOf, hv', hn']))
  | some n =>
    have below : buf.length < v.total n := by
      cases hn : lengthOf v buf with
      | none =>
        have := lengthOf_none hn
        simp only [Variant.total]
        omega
      | some k =>
        obtain rfl : k = n := Option.some.inj ((lengthOf_append hn [d]).symm.trans hn')
        exact (isWait_iff_of_varOf hv).1 ((settled_iff_wait _).1 h) _ (by simp [totalOf, hv, hn])
    obtain hlt | heq : (buf ++ [d]).length < v.total n ∨ (buf ++ [d]).length = v.total n := by
      simp only [List.length_append, List.length_singleton]
      omega
    · exact .inl ((isWait_iff_of_varOf hv').2 (by simpa [totalOf, hv', hn'] using hlt))
    · exact .inr ⟨v, n, headOf_frame_iff.2 ⟨varOf_iff.1 hv', hn'⟩, heq⟩

/-- Settles O17, by the length of the buffer: none, a half marker, or a marker with what follows it. -/
theorem pushEmitsAtMostOneRecord : Obligations.PushEmitsAtMostOneRecord := by
  intro p d c c' hset hpush
  rw [push_next hpush]
  change (c.memAppend [d]).EmitsAtMostOne (scan p (c.memAppend [d]))
  match hb : c.buf with
  | [] => exact emitsAtMostOne_scan_single (d := d) (by simp [hb])
  | [b] =>
    have hbuf : (c.memAppend [d]).buf = [b, d] := by simp [hb]
    have hm := mark_of_settled_single (hb ▸ hset)
    by_cases hd : d = b
    · subst hd
      have hw : (scanOutcome (c.memAppend [d]).buf).isWait = true := by
        rw [hbuf]
        rcases hm with rfl | rfl <;> rfl
      exact .inl (by rw [scan_wait hw])
    · exact emitsAtMostOne_scan_noMark_pair hbuf (hbuf ▸ headOf_skip (.inr ⟨hm, d, [], rfl, hd⟩))
  | _ :: _ :: _ =>
    obtain hw | ⟨v, n, hF⟩ := wait_or_presumedFrame_of_settled hset (by simp [hb]) d
    · exact .inl (by rw [scan_wait hw])
    · exact emitsAtMostOne_scan_presumedFrame hF

/-! ## Traces and acknowledgments hold what the block can produce (R140, R142, R182) -/

/-- Every record in the trace is one that the block can produce (R182). -/
def Ctx.TraceOk (p : Params) (c : Ctx) : Prop := ∀ r ∈ c.out, TraceRecord p r

/-- An empty trace holds no record. -/
theorem traceOk_reset (p : Params) : Ctx.reset.TraceOk p := by
  simp [Ctx.TraceOk]

/-- A step of the scan adds only records that the block can produce (R182). -/
theorem traceOk_scanStep (h : c.TraceOk p) : (scanStep p c).TraceOk p := by
  intro r hr
  obtain ho | ⟨r', hr', ho⟩ := scanStep_out p c
  · exact h r (ho ▸ hr)
  · rw [ho, List.mem_append, List.mem_singleton] at hr
    obtain hr | rfl := hr
    · exact h r hr
    · exact hr'

/-- A row on a context adds only records that the block can produce (R182). -/
theorem traceOk_ctxEffect (h : c.TraceOk p) (he : ctxEffect p i c = .next c') : c'.TraceOk p := by
  obtain ⟨-, rfl⟩ | hf | ⟨-, rfl⟩ | ⟨-, rfl⟩ := ctxEffect_next he
  · exact h
  · exact feed_preserves (P := Ctx.TraceOk p) (fun _ _ hc => hc) (fun _ => traceOk_scanStep) h hf
  · exact scan_preserves (fun _ => traceOk_scanStep) h
  · exact traceOk_scanStep h

/-- Every trace holds only records that the block can produce. -/
def State.TracesOk (s : State) : Prop := ∀ c ∈ s.ctxs, c.TraceOk s.cfg

/-- A held block has only empty traces (R101). -/
theorem tracesOk_holdReset (s : State) : s.holdReset.TracesOk :=
  fun c hc => holdReset_all_reset s c hc ▸ traceOk_reset _

/-- Every instruction keeps the traces to what the block can produce (R182). -/
theorem tracesOk_exec (h : s.TracesOk) (he : exec i s = .next t) : t.TracesOk := by
  obtain ⟨-, rfl⟩ | ⟨-, aq, resp, rfl, -⟩ | ⟨-, -, rfl⟩ | ⟨-, c, c', hs, hf, rfl⟩ := exec_next he
  · exact tracesOk_holdReset s
  · exact h
  · exact tracesOk_holdReset s
  · intro x hx
    obtain hx | rfl := List.mem_or_eq_of_mem_set hx
    · exact h x hx
    · exact traceOk_ctxEffect (h c (List.mem_of_getElem? hs.2)) hf

/-- No instruction but `ENCACK` adds an acknowledgment, and none takes one back (R145). -/
theorem exec_acks (he : exec i s = .next t) (hne : ∀ p sn, i ≠ .encack p sn) : t.acks = s.acks := by
  obtain ⟨-, rfl⟩ | ⟨hs, -⟩ | ⟨-, -, rfl⟩ | ⟨-, c, c', -, -, rfl⟩ := exec_next he
  · rfl
  · exact exec_stateless_acks hs he hne
  · rfl
  · rfl

/-- `ENCACK` adds its acknowledgment behind those sent (R77, R142). -/
theorem exec_encack_acks {proto : Byte} {sn : Word16} (he : exec (.encack proto sn) s = .next t) :
    t.acks = s.acks ++ [encAck s.cfg proto sn] := by
  obtain rfl : { s with aq := s.aq ++ [encAck s.cfg proto sn] } = t := Host.Outcome.next.inj he
  simp [State.acks]

/-- Every acknowledgment is one that `ENCACK` answers (R142). -/
def State.AcksOk (s : State) : Prop := ∀ f ∈ s.acks, ∃ proto sn, f = encAck s.cfg proto sn

/-- Every instruction keeps the acknowledgments to those that `ENCACK` answers (R142, R145). -/
theorem acksOk_exec (h : s.AcksOk) (he : exec i s = .next t) : t.AcksOk := by
  intro f hf
  rw [exec_cfg he]
  by_cases hi : ∃ proto sn, i = .encack proto sn
  · obtain ⟨proto, sn, rfl⟩ := hi
    rw [exec_encack_acks he, List.mem_append, List.mem_singleton] at hf
    obtain hf | rfl := hf
    · exact h f hf
    · exact ⟨proto, sn, rfl⟩
  · exact h f (exec_acks he (fun proto sn hi' => hi ⟨proto, sn, hi'⟩) ▸ hf)

/-- Waiting keeps traces and acknowledgments (R204). -/
theorem traceInv_idle (h : s.TraceInv) : s.idle.TraceInv := by
  unfold State.idle
  split
  · exact ⟨tracesOk_holdReset s, h.2⟩
  · exact h

/-- Every instruction keeps traces and acknowledgments to what the block can produce. -/
theorem traceInv_exec (h : s.TraceInv) (he : exec i s = .next t) : t.TraceInv :=
  ⟨tracesOk_exec h.1 he, acksOk_exec h.2 he⟩

/-! ## Only beats and `RST` touch a context between beats (R50) -/

/-- Holding the contexts changes nothing in a state of the invariant whose reset is held (R200). -/
theorem holdReset_of_inv (h : s.Inv) (hr : s.rst = true) : s.holdReset = s := by
  obtain ⟨-, -, hreset⟩ := h
  have : s.ctxs.map (fun _ => Ctx.reset) = s.ctxs :=
    (List.map_congr_left fun c hc => (hreset hr c hc).symm).trans (List.map_id _)
  simp only [State.holdReset, this]

/-- Only the beats of an input channel deliver bytes (R103, R104, R201). -/
theorem deliveredBytes_of_not_beat (h : (encode i).isBeat = false) : deliveredBytes i = [] := by
  cases i with
  | push d => cases h
  | feed bytes => cases h
  | frameStd body e0 e1 => cases h
  | frameExt body e0 e1 => cases h
  | frameNomark b0 b1 => cases h
  | _ => rfl

/-- On a settled buffer a row that is no beat has nothing to do: no byte arrives, and `SCAN_STEP`
waits (R24, R50). -/
theorem ctxEffect_settled (hc : Settled c.buf) (hi : (encode i).isBeat = false)
    (he : ctxEffect p i c = .next c') : c' = c := by
  obtain ⟨⟨x, rfl⟩, -⟩ | hf | ⟨-, rfl⟩ | ⟨-, rfl⟩ := ctxEffect_next he
  · cases hi
  · rw [deliveredBytes_of_not_beat hi] at hf
    exact (Option.some.inj hf).symm
  · exact scan_wait ((settled_iff_wait _).1 hc)
  · exact scanStep_settled hc

/-- In a state of the invariant an instruction that is no beat and not `RST` leaves every context. -/
theorem exec_not_beat_ctxs (h : s.Inv) (hi : (encode i).isBeat = false) (hne : i ≠ .rst)
    (he : exec i s = .next t) : t.ctxs = s.ctxs := by
  obtain ⟨hrst, -⟩ | ⟨-, aq, resp, rfl, -⟩ | ⟨-, hr, rfl⟩ | ⟨-, c, c', hs, hf, rfl⟩ := exec_next he
  · exact absurd hrst hne
  · rfl
  · rw [holdReset_of_inv h hr]
  · rw [ctxEffect_settled (settled_of_serves h hs) hi hf, setCtx_self hs.2]

/-- Settles O54: a step waits, releases the reset or runs an instruction, and each of them keeps traces
and acknowledgments. Which outputs are rows, and in which order the responses stand on `AQ`, are the
model's (assumptions 6 and 23). -/
theorem stepKeepsTheTraces : Obligations.StepKeepsTheTraces := by
  refine ⟨fun s t h hstep => ?_, fun i s t => exec_not_beat_ctxs⟩
  obtain rfl | ⟨o, rest, -, rfl | ⟨i, -, he⟩⟩ := step_next hstep
  · exact traceInv_idle h
  · exact h
  · exact traceInv_exec (s := { s with cur := o.ch, pend := rest }) h he

/-! ## The frame of every instruction (R22, R51, R190) -/

/-- A step of the scan removes bytes at the head of the buffer only (R22). -/
theorem scanStep_buf_suffix (p : Params) (c : Ctx) : (scanStep p c).buf <:+ c.buf := by
  obtain hw | ⟨ho, -⟩ | ⟨v, n, -, -, ⟨ho, -⟩ | ⟨ho, -⟩⟩ := scanOutcome_cases c.buf
  · rw [scanStep_wait hw]
  · rw [scanStep_of_skip ho]
    exact List.drop_suffix _ _
  · rw [scanStep_of_emit ho]
    exact List.drop_suffix _ _
  · rw [scanStep_drop ho]
    exact List.drop_suffix _ _

/-- A scan removes bytes at the head of the buffer only (R22). -/
theorem scan_buf_suffix (p : Params) (c : Ctx) : (scan p c).buf <:+ c.buf :=
  scan_preserves (P := fun c1 => c1.buf <:+ c.buf) (fun c1 h => (scanStep_buf_suffix p c1).trans h)
    (List.suffix_refl _)

/-- A delivery appends its bytes at the tail, and bytes leave at the head only (R22, R104). -/
theorem feed_buf_suffix {bytes : List Byte} (h : feed p bytes c = some c') :
    c'.buf <:+ c.buf ++ bytes := by
  induction bytes generalizing c with
  | nil => simp [Option.some.inj h]
  | cons d ds ih =>
    obtain ⟨c1, hp, hf⟩ := feed_cons_next h
    obtain ⟨gone, hgone⟩ : c1.buf <:+ c.buf ++ [d] := push_next hp ▸ scan_buf_suffix p _
    refine (ih hf).trans ⟨gone, ?_⟩
    rw [← List.append_assoc, hgone, List.append_assoc, List.singleton_append]

/-- A row on a context appends the bytes it delivers, and bytes leave at the head only (R22). -/
theorem ctxEffect_buf_suffix (he : ctxEffect p i c = .next c') :
    c'.buf <:+ c.buf ++ deliveredBytes i := by
  obtain ⟨-, rfl⟩ | hf | ⟨rfl, rfl⟩ | ⟨hd, rfl⟩ := ctxEffect_next he
  · exact List.nil_suffix
  · exact feed_buf_suffix hf
  · simpa [deliveredBytes] using scan_buf_suffix p c
  · simpa [hd] using scanStep_buf_suffix p c

/-- The rows of the waits are those of the outcomes that end a scan (R105). -/
theorem isWait_of_row_mem_waitRows {o : ScanOutcome} (h : o.row ∈ waitRows) : o.isWait = true := by
  cases o with
  | skip => simp [ScanOutcome.row, waitRows] at h
  | emit total => simp [ScanOutcome.row, waitRows] at h
  | drop total => simp [ScanOutcome.row, waitRows] at h
  | _ => rfl

/-- The four waits are among the seven outcomes (R106). -/
theorem mem_outcomeRows_of_wait (h : i ∈ waitRows) : i ∈ outcomeRows := by
  simp only [waitRows, outcomeRows, List.mem_cons, List.not_mem_nil, or_false] at h ⊢
  tauto

/-- The row of a wait, where it completes, changes nothing (R107, R108, R110, R111). -/
theorem exec_waitRow_next (hs : s.Serves c) (hi : i ∈ waitRows) (he : exec i s = .next t) : t = s := by
  by_cases hrow : i = (scanOutcome c.buf).row
  · subst hrow
    rw [exec_row_wait hs rfl (isWait_of_row_mem_waitRows hi)] at he
    exact (Host.Outcome.next.inj he).symm
  · rw [exec_row_other hs (mem_outcomeRows_of_wait hi) hrow] at he
    cases he

/-- A row on a context is not stateless (R197). -/
theorem isStateless_of_actsOnContext (h : actsOnContext i = true) : isStateless i = false := by
  cases hs : isStateless i with
  | false => rfl
  | true => simp [actsOnContext, hs] at h

/-- What a row on a context makes of the served one: bytes are appended as the row delivers them and
leave at the head, and a wait leaves the context alone (R22, R107). -/
theorem exec_served_frame (ha : actsOnContext i = true) (hs : s.Serves c) (he : exec i s = .next t)
    (hc' : t.ctxs[s.cur]? = some c') :
    c'.buf <:+ c.buf ++ deliveredBytes i ∧ (i ∈ waitRows → c' = c) := by
  constructor
  · obtain ⟨c0, c1, hs0, hf, rfl⟩ := exec_next_served he ha hs.1
    obtain rfl : c0 = c := Option.some.inj (hs0.2.symm.trans hs.2)
    obtain rfl : c1 = c' := Option.some.inj ((setCtx_served hs.2).symm.trans hc')
    exact ctxEffect_buf_suffix hf
  · intro hi
    rw [exec_waitRow_next hs hi he] at hc'
    exact Option.some.inj (hc'.symm.trans hs.2)

/-- Settles O56: a stateless row changes only the answers and `AQ`, and any other row but `RST` is one
operation on the current context. -/
theorem everyInstructionsFrame : Obligations.EveryInstructionsFrame := by
  refine ⟨fun s => rfl, fun i s t hne he => ?_⟩
  have hacks := exec_acks he
  obtain hs | rfl | ⟨x, rfl⟩ | ha := instr_cases i
  · obtain ⟨aq, resp, rfl, hresp⟩ := exec_stateless_frame hs he
    exact ⟨rfl, rfl, rfl, rfl, rfl, hresp, hacks, fun _ => rfl, fun hs' => by simp [hs] at hs'⟩
  · exact absurd rfl hne
  · cases he
  · have hs := isStateless_of_actsOnContext ha
    have hon := exec_onCtx s ha ▸ he
    obtain ⟨hcfg, hrst, hcur, hpend, haq, hresp, hlen⟩ := onCtx_frame hon
    refine ⟨hcfg, hrst, hcur, hpend, hlen, hresp ▸ List.prefix_refl _, hacks,
      fun hs' => by simp [hs] at hs', fun _ => ⟨hresp, haq, fun hr => ?_, fun hr => ⟨?_, ?_⟩⟩⟩
    · obtain rfl := Host.Outcome.next.inj ((onCtx_held hr).symm.trans hon)
      exact holdReset_ctxs s
    · exact fun k hk => onCtx_others hon hr hk
    · exact fun c c' hc hc' => exec_served_frame ha ⟨hr, hc⟩ he hc'

end Sys2Proof.Machine

/-! PROOFS: reset and hazards (`70_reset_and_hazards.md`). Which offer is accepted while `rst` is 1, and
what the block does while it is held or waits. -/

namespace Sys2Proof.Machine

variable {s : State} {o : Offer} {beats rest : List Offer} {i : Instr}

/-- While `rst` is 1 a beat at the head is passed over and stays in front of what remains (R101, R213). -/
theorem acceptFrom_held_cons {b : Offer} (hb : b.xfer.isBeat = true) (rest : List Offer) :
    acceptFrom true (b :: rest) = (acceptFrom true rest).map fun q => (q.1, b :: q.2) := by
  rw [acceptFrom]
  cases acceptFrom true rest <;> simp [hb]

/-- While `rst` is 1 the first transfer behind the beats is accepted, and the beats stay (R101, R213). -/
theorem acceptFrom_behind_beats (hb : ∀ b ∈ beats, b.xfer.isBeat = true)
    (ho : o.xfer.isBeat = false) :
    acceptFrom true (beats ++ o :: rest) = some (o, beats ++ rest) := by
  induction beats with
  | nil => exact acceptFrom_head (by simp [ho]) rest
  | cons b beats ih =>
    obtain ⟨hhead, htail⟩ := List.forall_mem_cons.mp hb
    rw [List.cons_append, acceptFrom_held_cons hhead, ih htail]
    rfl

/-- While `rst` is 1 no beat is accepted (R101, R200). -/
theorem acceptFrom_only_beats (hb : ∀ b ∈ beats, b.xfer.isBeat = true) :
    acceptFrom true beats = none := by
  induction beats with
  | nil => rfl
  | cons b beats ih =>
    obtain ⟨hhead, htail⟩ := List.forall_mem_cons.mp hb
    rw [acceptFrom_held_cons hhead, ih htail]
    rfl

/-- A step runs the instruction of the offer it accepts, wherever that stands in the queue. -/
theorem step_of_accepted (ha : acceptFrom s.rst s.pend = some (o, rest))
    (hi : decode o.xfer = .ok i) : step s = exec i { s with cur := o.ch, pend := rest } := by
  simp [step, State.takeOffer, ha, hi]

/-- A step releases the reset where the offer it accepts is the `rst` pin at 0 (R200). -/
theorem step_of_accepted_pinLow (ha : acceptFrom s.rst s.pend = some (o, rest))
    (hd : decode o.xfer = .error .pinLow) :
    step s = .next (State.releaseRst { s with cur := o.ch, pend := rest }) := by
  simp [step, State.takeOffer, ha, hd]

/-- With nothing to accept a step waits (R204). -/
theorem step_of_none_accepted (ha : acceptFrom s.rst s.pend = none) : step s = .next s.idle := by
  simp [step, State.takeOffer, ha]

/-- Waiting changes nothing in a state of the invariant: held contexts are at their reset values
already (R200, R204). -/
theorem idle_of_inv (h : s.Inv) : s.idle = s := by
  cases hr : s.rst with
  | false => simp [State.idle, hr]
  | true => simp [State.idle, hr, holdReset_of_inv h hr]

/-- Settles O6: the transfer behind the beats is the one accepted, and the beats stay. -/
theorem beatsStayOfferedWhileReset : Obligations.BeatsStayOfferedWhileReset := by
  intro s beats rest o i hr hb ho hq hi
  have ha : acceptFrom s.rst s.pend = some (o, beats ++ rest) := by
    rw [hr, hq, acceptFrom_behind_beats hb ho]
  exact step_of_accepted ha hi

/-- Settles O11: a row on a context is an operation on the served one, which holds the contexts while
`rst` is 1, and the invariant has them at their reset values already. -/
theorem nothingAcceptedWhileReset : Obligations.NothingAcceptedWhileReset := by
  intro s i h hr ha
  rw [exec_onCtx s ha, onCtx_held hr, holdReset_of_inv h hr]

/-- Settles O7: at both levels of `rst` no offer is accepted, and the block waits. -/
theorem waitingChangesNothing : Obligations.WaitingChangesNothing := by
  intro s h hheld hrunning
  have ha : acceptFrom s.rst s.pend = none := by
    cases hr : s.rst with
    | false => rw [hrunning hr]; rfl
    | true => exact acceptFrom_only_beats (hheld hr)
  rw [step_of_none_accepted ha, idle_of_inv h]

/-- Settles O8: the pin is no beat, so its offer is accepted at either level of `rst`, and level 0 is
read as the release. -/
theorem pinLowReleasesReset : Obligations.PinLowReleasesReset := by
  intro s ch rest hq
  have ha : acceptFrom s.rst s.pend = some (⟨ch, .rstPin 0⟩, rest) := by
    rw [hq, acceptFrom_head (by simp [Xfer.isBeat])]
  exact step_of_accepted_pinLow ha rfl

end Sys2Proof.Machine
